-- ==== Sys2Proof/Word.lean ====
section
/-! DEFINITION. The widths the spec fixes (00_scope.md R8, 20_memory.md R50): a register value, an address
and an A32 instruction are 32 bits, a T32 halfword 16, the unit of addressing 8. -/

namespace Sys2Proof

/-- A register value, an address, an A32 word or a 32-bit T32 value `hw1:hw2` (R8, R70). -/
abbrev Word := BitVec 32

/-- A T32 halfword (R72). -/
abbrev Half := BitVec 16

/-- The unit of addressing (20_memory.md R50). -/
abbrev Byte := BitVec 8

/-- A register number, 0 to 15 (10_state.md R20). -/
abbrev Reg := BitVec 4

/-- A register number of class T1, 0 to 7 (10_state.md R22). -/
abbrev LowReg := BitVec 3

end Sys2Proof
end

