-- ==== Sys2Proof/Syntax.lean ====
section
/-! DEFINITION. The instructions as syntax: one constructor per row of spec/opcode_table.json. -/

namespace Sys2Proof

/-- The conditions of 43_and_r_operation.md R152, but for `1111`, which is no condition of an instruction in
scope (30_encoding.md R80). -/
inductive Cond where
  | eq | ne | cs | cc | mi | pl | vs | vc | hi | ls | ge | lt | gt | le | al
  deriving DecidableEq, Repr

/-- The shift types, `SRType` (43_and_r_operation.md R154). -/
inductive SRType where
  | lsl | lsr | asr | ror | rrx
  deriving DecidableEq, Repr

/-- One constructor per encoding of AND, ANDS (register). `d`, `n`, `m` are the register numbers of `Rd`, `Rn`
and `Rm`. A shift is held as `DecodeImmShift` gives it (30_encoding.md R78): its type and its amount in bit
positions. `sbz` is bit 15 of a T2 value, which should be zero (30_encoding.md R81). -/
inductive Instr where
  /-- `AND{<c>} <Rd>, <Rn>, <Rm>, RRX` (R101). -/
  | andRA1Rrx (cond : Cond) (d n m : Reg)
  /-- `AND{<c>} <Rd>, <Rn>, <Rm> {, <shift> #<amount>}` (R102). -/
  | andRA1 (cond : Cond) (d n m : Reg) (shift : SRType) (amount : Nat)
  /-- `ANDS{<c>} <Rd>, <Rn>, <Rm>, RRX` (R103). -/
  | andsRA1Rrx (cond : Cond) (d n m : Reg)
  /-- `ANDS{<c>} <Rd>, <Rn>, <Rm> {, <shift> #<amount>}` (R104). -/
  | andsRA1 (cond : Cond) (d n m : Reg) (shift : SRType) (amount : Nat)
  /-- `ANDS <Rdn>, <Rm>` outside an IT block (R121), `AND<c> <Rdn>, <Rm>` inside one (R122). -/
  | andRT1 (dn m : LowReg)
  /-- `AND{<c>} <Rd>, <Rn>, <Rm>, RRX` (R131). -/
  | andRT2Rrx (d n m : Reg) (sbz : Bool)
  /-- `AND{<c>} <Rd>, <Rn>, <Rm> {, <shift> #<amount>}` (R132). -/
  | andRT2 (d n m : Reg) (sbz : Bool) (shift : SRType) (amount : Nat)
  /-- `ANDS{<c>} <Rd>, <Rn>, <Rm>, RRX` (R133). -/
  | andsRT2Rrx (d n m : Reg) (sbz : Bool)
  /-- `ANDS{<c>} <Rd>, <Rn>, <Rm> {, <shift> #<amount>}` (R134). -/
  | andsRT2 (d n m : Reg) (sbz : Bool) (shift : SRType) (amount : Nat)
  deriving DecidableEq, Repr

end Sys2Proof
end

