-- ==== Sys2Proof/WellFormed.lean ====
section
/-! DEFINITION. Which terms of `Instr` stand for an instruction: those some word encodes. The T2 forms the spec
calls UNPREDICTABLE (30_encoding.md R81, R82) are well-formed: they decode, and their meaning refuses them. -/

namespace Sys2Proof

/-- The shift types and amounts that `DecodeImmShift` gives a "shift or rotate by value" encoding
(43_and_r_operation.md R154): RRX is not among them, it has rows of its own. -/
def SRType.validAmount (shift : SRType) (amount : Nat) : Bool :=
  match shift with
  | .lsl => amount ≤ 31
  | .lsr => 1 ≤ amount && amount ≤ 32
  | .asr => 1 ≤ amount && amount ≤ 32
  | .ror => 1 ≤ amount && amount ≤ 31
  | .rrx => false

/-- An instruction some word encodes (30_encoding.md R74 to R76). T2 with `S == 1` and `Rd == 1111` is TST
(register), another instruction (R75). -/
def Instr.wellFormed (i : Instr) : Bool :=
  match i with
  | .andRA1Rrx _ _ _ _ => true
  | .andRA1 _ _ _ _ shift amount => shift.validAmount amount
  | .andsRA1Rrx _ _ _ _ => true
  | .andsRA1 _ _ _ _ shift amount => shift.validAmount amount
  | .andRT1 _ _ => true
  | .andRT2Rrx _ _ _ _ => true
  | .andRT2 _ _ _ _ shift amount => shift.validAmount amount
  | .andsRT2Rrx d _ _ _ => d != 15#4
  | .andsRT2 d _ _ _ shift amount => d != 15#4 && shift.validAmount amount

/-- The instruction set an instruction belongs to: true for T32, false for A32 (00_scope.md R3). -/
def Instr.isT32 (i : Instr) : Bool :=
  match i with
  | .andRA1Rrx _ _ _ _ => false
  | .andRA1 _ _ _ _ _ _ => false
  | .andsRA1Rrx _ _ _ _ => false
  | .andsRA1 _ _ _ _ _ _ => false
  | .andRT1 _ _ => true
  | .andRT2Rrx _ _ _ _ => true
  | .andRT2 _ _ _ _ _ _ => true
  | .andsRT2Rrx _ _ _ _ => true
  | .andsRT2 _ _ _ _ _ _ => true

/-- The length in bytes: 4 for A1 and T2, 2 for T1 (30_encoding.md R86, 10_state.md R26). -/
def Instr.length (i : Instr) : Nat :=
  match i with
  | .andRA1Rrx _ _ _ _ => 4
  | .andRA1 _ _ _ _ _ _ => 4
  | .andsRA1Rrx _ _ _ _ => 4
  | .andsRA1 _ _ _ _ _ _ => 4
  | .andRT1 _ _ => 2
  | .andRT2Rrx _ _ _ _ => 4
  | .andRT2 _ _ _ _ _ _ => 4
  | .andsRT2Rrx _ _ _ _ => 4
  | .andsRT2 _ _ _ _ _ _ => 4

end Sys2Proof
end

