-- ==== Sys2Proof/Decode.lean ====
section
/-! DEFINITION. The decoder, total on any bytes (30_encoding.md R70 to R86), the encoder written from the same
formats, and the rows of spec/opcode_table.json as data. -/

namespace Sys2Proof

/-! ### Fields -/

/-- The condition a `cond` field names; none for `1111` (43_and_r_operation.md R152, 30_encoding.md R80). -/
def Cond.ofBits (b : BitVec 4) : Option Cond :=
  match b.toNat with
  | 0 => some .eq
  | 1 => some .ne
  | 2 => some .cs
  | 3 => some .cc
  | 4 => some .mi
  | 5 => some .pl
  | 6 => some .vs
  | 7 => some .vc
  | 8 => some .hi
  | 9 => some .ls
  | 10 => some .ge
  | 11 => some .lt
  | 12 => some .gt
  | 13 => some .le
  | 14 => some .al
  | _ => none

/-- The `cond` field of a condition (43_and_r_operation.md R152). -/
def Cond.toBits (c : Cond) : BitVec 4 :=
  match c with
  | .eq => 0b0000#4
  | .ne => 0b0001#4
  | .cs => 0b0010#4
  | .cc => 0b0011#4
  | .mi => 0b0100#4
  | .pl => 0b0101#4
  | .vs => 0b0110#4
  | .vc => 0b0111#4
  | .hi => 0b1000#4
  | .ls => 0b1001#4
  | .ge => 0b1010#4
  | .lt => 0b1011#4
  | .gt => 0b1100#4
  | .le => 0b1101#4
  | .al => 0b1110#4

/-- `DecodeImmShift` (30_encoding.md R78): the shift type and the amount. -/
def decodeImmShift (stype : BitVec 2) (imm5 : BitVec 5) : SRType × Nat :=
  match stype.toNat with
  | 0 => (.lsl, imm5.toNat)
  | 1 => (.lsr, if imm5 = 0#5 then 32 else imm5.toNat)
  | 2 => (.asr, if imm5 = 0#5 then 32 else imm5.toNat)
  | _ => if imm5 = 0#5 then (.rrx, 1) else (.ror, imm5.toNat)

/-- The `stype` field of a shift type (30_encoding.md R77); RRX shares ROR's. -/
def SRType.stype (shift : SRType) : BitVec 2 :=
  match shift with
  | .lsl => 0b00#2
  | .lsr => 0b01#2
  | .asr => 0b10#2
  | .ror => 0b11#2
  | .rrx => 0b11#2

/-- The amount field: the amount modulo 32 (30_encoding.md R79). -/
def amountField (amount : Nat) : BitVec 5 :=
  BitVec.ofNat 5 amount

/-! ### The three formats -/

/-- Class A1 (30_encoding.md R71, R74; 40_and_r_a1.md R100). -/
def decodeA1 (w : Word) : Option Instr :=
  if w &&& 0x0FE00010#32 = 0x00000000#32 then
    match Cond.ofBits (w.extractLsb' 28 4) with
    | none => none
    | some cond =>
      let setflags := w.getLsbD 20
      let n : Reg := w.extractLsb' 16 4
      let d : Reg := w.extractLsb' 12 4
      let imm5 := w.extractLsb' 7 5
      let stype := w.extractLsb' 5 2
      let m : Reg := w.extractLsb' 0 4
      let sh := decodeImmShift stype imm5
      if imm5 = 0#5 ∧ stype = 0b11#2 then
        some (if setflags then .andsRA1Rrx cond d n m else .andRA1Rrx cond d n m)
      else
        some (if setflags then .andsRA1 cond d n m sh.1 sh.2 else .andRA1 cond d n m sh.1 sh.2)
  else none

/-- Class T1 (30_encoding.md R72, R76; 41_and_r_t1.md R120). -/
def decodeT1 (h : Half) : Option Instr :=
  if h &&& 0xFFC0#16 = 0x4000#16 then some (.andRT1 (h.extractLsb' 0 3) (h.extractLsb' 3 3)) else none

/-- Class T2 on the value `hw1:hw2` (30_encoding.md R73, R75; 42_and_r_t2.md R130). `S == 1` with
`Rd == 1111` is TST (register), which is not in scope. -/
def decodeT2 (w : Word) : Option Instr :=
  if w &&& 0xFFE00000#32 = 0xEA000000#32 then
    let setflags := w.getLsbD 20
    let n : Reg := w.extractLsb' 16 4
    let sbz := w.getLsbD 15
    let imm3 := w.extractLsb' 12 3
    let d : Reg := w.extractLsb' 8 4
    let imm2 := w.extractLsb' 6 2
    let stype := w.extractLsb' 4 2
    let m : Reg := w.extractLsb' 0 4
    if d = 15#4 ∧ setflags = true then none
    else
      let sh := decodeImmShift stype (imm3 ++ imm2)
      if imm3 = 0#3 ∧ imm2 = 0#2 ∧ stype = 0b11#2 then
        some (if setflags then .andsRT2Rrx d n m sbz else .andRT2Rrx d n m sbz)
      else
        some (if setflags then .andsRT2 d n m sbz sh.1 sh.2 else .andRT2 d n m sbz sh.1 sh.2)
  else none

/-- Whether a first halfword begins a 32-bit T32 instruction (20_memory.md R53). -/
def isWide (hw1 : Half) : Bool :=
  let top := hw1.extractLsb' 11 5
  top == 0b11101#5 || top == 0b11110#5 || top == 0b11111#5

/-! ### Bytes -/

/-- The little-endian halfword of two bytes, the first at the lower address (00_scope.md R14). -/
def half (b0 b1 : Byte) : Half :=
  b1 ++ b0

/-- The A32 word of four bytes at increasing addresses (20_memory.md R52). -/
def wordA32 (b0 b1 b2 b3 : Byte) : Word :=
  half b2 b3 ++ half b0 b1

/-- The T32 value `hw1:hw2` of four bytes at increasing addresses (20_memory.md R53, R54). -/
def wordT32 (b0 b1 b2 b3 : Byte) : Word :=
  half b0 b1 ++ half b2 b3

/-- What the decoder answers on bytes: an instruction and the bytes after it, a word that is not one of the
nine encodings (a halfword zero extended; 30_encoding.md R83), or too few bytes to hold an instruction. -/
inductive Decoded where
  | instr (i : Instr) (rest : List Byte)
  | notInScope (word : Word)
  | truncated
  deriving DecidableEq, Repr

/-- The answer for a word whose class decoder gave `o`. -/
def Decoded.ofOption (o : Option Instr) (word : Word) (rest : List Byte) : Decoded :=
  match o with
  | some i => .instr i rest
  | none => .notInScope word

/-- The decoder: A1 when `t` is false, T1 and T2 when it is true (30_encoding.md R70, R86). -/
def decode (t : Bool) (bytes : List Byte) : Decoded :=
  match t, bytes with
  | false, b0 :: b1 :: b2 :: b3 :: rest =>
    .ofOption (decodeA1 (wordA32 b0 b1 b2 b3)) (wordA32 b0 b1 b2 b3) rest
  | true, b0 :: b1 :: rest =>
    if isWide (half b0 b1) then
      match rest with
      | b2 :: b3 :: rest' => .ofOption (decodeT2 (wordT32 b0 b1 b2 b3)) (wordT32 b0 b1 b2 b3) rest'
      | _ => .truncated
    else .ofOption (decodeT1 (half b0 b1)) ((half b0 b1).setWidth 32) rest
  | _, _ => .truncated

/-! ### The encoder -/

/-- An A1 word (30_encoding.md R71). -/
def encodeA1 (cond : Cond) (setflags : Bool) (d n m : Reg) (shift : SRType) (amountBits : BitVec 5) : Word :=
  cond.toBits ++ 0b0000000#7 ++ BitVec.ofBool setflags ++ n ++ d ++ amountBits ++ shift.stype ++ 0#1 ++ m

/-- A T1 halfword (30_encoding.md R72). -/
def encodeT1 (dn m : LowReg) : Half :=
  0b0100000000#10 ++ m ++ dn

/-- A T2 value `hw1:hw2` (30_encoding.md R73). -/
def encodeT2 (setflags : Bool) (d n m : Reg) (sbz : Bool) (shift : SRType) (amountBits : BitVec 5) : Word :=
  0b11101010000#11 ++ BitVec.ofBool setflags ++ n ++ BitVec.ofBool sbz ++ amountBits.extractLsb' 2 3 ++ d ++
    amountBits.extractLsb' 0 2 ++ shift.stype ++ m

/-- The bits of an instruction as the table numbers them: an A32 word, a T1 halfword zero extended, a T2 value
`hw1:hw2`. -/
def encodeWord (i : Instr) : Word :=
  match i with
  | .andRA1Rrx cond d n m => encodeA1 cond false d n m .rrx 0#5
  | .andRA1 cond d n m shift amount => encodeA1 cond false d n m shift (amountField amount)
  | .andsRA1Rrx cond d n m => encodeA1 cond true d n m .rrx 0#5
  | .andsRA1 cond d n m shift amount => encodeA1 cond true d n m shift (amountField amount)
  | .andRT1 dn m => (encodeT1 dn m).setWidth 32
  | .andRT2Rrx d n m sbz => encodeT2 false d n m sbz .rrx 0#5
  | .andRT2 d n m sbz shift amount => encodeT2 false d n m sbz shift (amountField amount)
  | .andsRT2Rrx d n m sbz => encodeT2 true d n m sbz .rrx 0#5
  | .andsRT2 d n m sbz shift amount => encodeT2 true d n m sbz shift (amountField amount)

/-- The bytes of a halfword, least significant first (00_scope.md R14). -/
def halfBytes (h : Half) : List Byte :=
  [h.extractLsb' 0 8, h.extractLsb' 8 8]

/-- The bytes of an A32 word at increasing addresses (20_memory.md R52). -/
def bytesA32 (w : Word) : List Byte :=
  halfBytes (w.extractLsb' 0 16) ++ halfBytes (w.extractLsb' 16 16)

/-- The bytes of a 32-bit T32 value at increasing addresses (20_memory.md R53, R54). -/
def bytesT32 (w : Word) : List Byte :=
  halfBytes (w.extractLsb' 16 16) ++ halfBytes (w.extractLsb' 0 16)

/-- The bytes of an instruction at increasing addresses. -/
def encode (i : Instr) : List Byte :=
  if i.isT32 then
    if i.length = 2 then halfBytes ((encodeWord i).extractLsb' 0 16) else bytesT32 (encodeWord i)
  else bytesA32 (encodeWord i)

/-! ### The opcode table -/

/-- One row of spec/opcode_table.json: a word `w` is the row's when `w &&& mask = value` and no pair of
`exclusions` has `w &&& pair.1 = pair.2`. -/
structure OpcodeRow where
  mask : Word
  value : Word
  exclusions : List (Word × Word)
  deriving DecidableEq, Repr

/-- Whether a word is a row's. -/
def OpcodeRow.holds (r : OpcodeRow) (w : Word) : Bool :=
  (w &&& r.mask == r.value) && r.exclusions.all (fun p => w &&& p.1 != p.2)

/-- The table's row of an instruction (T1's on the halfword zero extended). -/
def Instr.row (i : Instr) : OpcodeRow :=
  match i with
  | .andRA1Rrx _ _ _ _ => ⟨0x0FF00FF0, 0x00000060, [(0xF0000000, 0xF0000000)]⟩
  | .andRA1 _ _ _ _ _ _ => ⟨0x0FF00010, 0x00000000, [(0xF0000000, 0xF0000000), (0x00000FE0, 0x00000060)]⟩
  | .andsRA1Rrx _ _ _ _ => ⟨0x0FF00FF0, 0x00100060, [(0xF0000000, 0xF0000000)]⟩
  | .andsRA1 _ _ _ _ _ _ => ⟨0x0FF00010, 0x00100000, [(0xF0000000, 0xF0000000), (0x00000FE0, 0x00000060)]⟩
  | .andRT1 _ _ => ⟨0x0000FFC0, 0x00004000, []⟩
  | .andRT2Rrx _ _ _ _ => ⟨0xFFF070F0, 0xEA000030, []⟩
  | .andRT2 _ _ _ _ _ _ => ⟨0xFFF00000, 0xEA000000, [(0x000070F0, 0x00000030)]⟩
  | .andsRT2Rrx _ _ _ _ => ⟨0xFFF070F0, 0xEA100030, [(0x00000F00, 0x00000F00)]⟩
  | .andsRT2 _ _ _ _ _ _ => ⟨0xFFF00000, 0xEA100000, [(0x000070F0, 0x00000030), (0x00000F00, 0x00000F00)]⟩

/-! ### The host's view of the table -/

/-- Whether bits numbered as the table numbers them are T32's: a 16-bit row, or a 32-bit value whose first
halfword (bits 31:16) begins a 32-bit T32 instruction. Log 5. -/
def tableWordIsT32 (nbits w : Nat) : Bool :=
  nbits ≤ 16 || isWide ((BitVec.ofNat 32 w).extractLsb' 16 16)

/-- The bytes of an instruction whose bits are `w`, numbered as the table numbers them, followed by zero bytes up to
the longest instruction, four bytes. Log 5. -/
def tableWordBytes (nbits w : Nat) : List Byte :=
  if nbits ≤ 16 then halfBytes (BitVec.ofNat 16 w) ++ halfBytes 0#16
  else if tableWordIsT32 nbits w then bytesT32 (BitVec.ofNat 32 w)
  else bytesA32 (BitVec.ofNat 32 w)

/-- The instruction the decoder reads from bits numbered as the table numbers them. -/
def decodeTableWord (nbits w : Nat) : Option Instr :=
  match decode (tableWordIsT32 nbits w) (tableWordBytes nbits w) with
  | .instr i _ => some i
  | .notInScope _ => none
  | .truncated => none

end Sys2Proof
end

