-- ==== Sys2Proof/Config.lean ====
section
/-! DEFINITION. What an implementation fixes and the spec leaves open (00_scope.md R9). Each constant has no
body: nothing can be proved about its value, so a claim holds for every implementation. -/

namespace Sys2Proof

/-- The two behaviours general knowledge permits for a branch to an A32 address with bit 1 set: the values of
`P_A32_FORCE_ALIGN_PC` other than `refuse` (43_and_r_operation.md R165). -/
inductive UnalignedBranch where
  | forceAlign
  | faultAtTarget
  deriving DecidableEq, Repr, Inhabited

/-- The two behaviours general knowledge permits for ANDS to the PC in User or System mode: the values of
`P_ALU_EXC_RETURN_USR_SYS` other than `refuse` (43_and_r_operation.md R167). -/
inductive UsrSysReturn where
  | undefined
  | nop
  deriving DecidableEq, Repr, Inhabited

/-- `P_A32_FORCE_ALIGN_PC` (R9, R165). Log 8. -/
opaque Config.a32UnalignedBranch : UnalignedBranch

/-- `P_ALU_EXC_RETURN_USR_SYS` (R9, R167). Log 7. -/
opaque Config.aluExcReturnUsrSys : UsrSysReturn

/-- `P_HAVE_EL2`: whether Hyp mode exists (R9, R34). Log 14. -/
opaque Config.haveEL2 : Bool

/-- `P_HAVE_DIT`: whether `PSTATE.DIT` exists (R9, R31). Log 14. -/
opaque Config.haveDIT : Bool

/-- Whether `PSTATE.PAN` is implemented (R36, R168). Log 14. -/
opaque Config.havePAN : Bool

/-- Whether `PSTATE.SSBS` is implemented (R36, R168). Log 14. -/
opaque Config.haveSSBS : Bool

/-- Whether EL3 uses AArch32, which puts FIQ, IRQ, Supervisor, Abort, Undefined and System mode at EL3
(60_exceptions.md R201). Log 11. -/
opaque Config.el3UsesAArch32 : Bool

/-- Whether the configuration allows a return from the mode numbered by the first argument, at the Exception level of the
second, to the mode numbered by the third and its security state (43_and_r_operation.md R169). Log 11. -/
opaque Config.securityAllows : BitVec 5 → BitVec 2 → BitVec 5 → Bool

/-- `PSTATE.SS` after an exception return (10_state.md R37, 60_exceptions.md R205), by the number of free values drawn
before and the SPSR: the spec states no value. Log 13. -/
opaque Config.ssAfterReturn : Nat → Word → Bool

end Sys2Proof
end

