-- ==== Sys2Proof/Machine/State.lean ====
section
/-! DEFINITION. The machine's state as plain data, the reasons a step can stop, and the state after reset.
INVENTORY.md lists every field with the rule that names it. -/

namespace Sys2Proof.Machine

/-- The PE modes (10_state.md R34). -/
inductive Mode where
  | user | fiq | irq | supervisor | monitor | abort | hyp | undefined | system
  deriving DecidableEq, Repr

/-- PSTATE. The flags (10_state.md R29), ITSTATE (R33), the instruction-set state, true for T32 (R32), DIT (R31),
the mode and Exception level (R34), and the fields only an exception return touches (R36, R37). -/
structure PState where
  n : Bool
  z : Bool
  c : Bool
  v : Bool
  q : Bool
  ge : BitVec 4
  it : BitVec 8
  t : Bool
  e : Bool
  aMask : Bool
  iMask : Bool
  fMask : Bool
  il : Bool
  pan : Bool
  ssbs : Bool
  dit : Bool
  ss : Bool
  mode : Mode
  el : BitVec 2
  deriving DecidableEq, Repr

/-- The saved program status registers, one per exception mode (10_state.md R35, 60_exceptions.md R202). -/
structure Spsrs where
  fiq : Word
  irq : Word
  svc : Word
  mon : Word
  abt : Word
  und : Word
  hyp : Word
  deriving DecidableEq, Repr

/-- The state of the PE and its program text. `regs` holds the physical general-purpose registers
(10_state.md R20, R23); which of them a register number names in a mode is `physIndex` of Machine/Ops.lean:
0 to 14 are R0 to R14 of User mode, 15 to 21 R8 to R14 of FIQ, then R13 and R14 of IRQ (22, 23), Supervisor (24, 25),
Abort (26, 27), Undefined (28, 29) and Monitor (30, 31), and R13 of Hyp (32). `exclusive` says whether the local
exclusive monitor is held (20_memory.md R61). `imem` is IMEM (R39, R50): the bytes there are, by rising address.
`draws` is the model's own: how many free values steps have drawn (log 13). -/
structure State where
  regs : Vector Word 33
  pc : Word
  pstate : PState
  spsr : Spsrs
  exclusive : Bool
  imem : List Host.Cell
  draws : Nat
  deriving DecidableEq, Repr

/-- Where the machine stops with a fault; no step follows one (60_exceptions.md R190). -/
inductive Fault where
  /-- `raise Undefined`: ANDS to the PC in Hyp mode (R191), or in User or System mode where the implementation makes
  it UNDEFINED (R167). Raised by `raiseUndefined`. Safe: hardware goes on at a vector no source gives (log 10). -/
  | undefined
  /-- `fault Fetch(addr)`: a misaligned pc or a byte outside IMEM (20_memory.md R56, R57). Raised by `fetch`. Safe:
  hardware would take an abort that no source describes (log 27). -/
  | fetch (addr : Word)
  /-- The Illegal Execution state exception that the instruction after an illegal return takes
  (43_and_r_operation.md R169). Raised by `fetchDecode`. Safe: its entry is in no source (log 12). -/
  | illegalState
  deriving DecidableEq, Repr

/-- The UNPREDICTABLE cases the spec gives no behaviour for. -/
inductive Unpredictable where
  /-- T2 with bit 15 set (30_encoding.md R81). -/
  | t2SbzBit15
  /-- T2 with the PC as a source, or as the destination of AND (30_encoding.md R82, 60_exceptions.md R192). -/
  | t2PcOperand
  deriving DecidableEq, Repr

/-- Where the model gives no next state (60_exceptions.md R190). -/
inductive Refusal where
  /-- An instruction that has no meaning yet. Raised by an arm of `exec`; there is no such arm. Safe. -/
  | notModelled (mnemonic : String)
  /-- The word is not one of the nine encodings (30_encoding.md R83). Raised by `fetchDecode`, and by a T2 meaning for
  the term that stands for TST (R75). Safe: hardware runs another instruction. -/
  | notInScope (word : Word)
  /-- The architecture permits several behaviours and the sources give none (R81, R192). Raised by the T2 meanings.
  Safe. -/
  | unpredictable (reason : Unpredictable)
  /-- `NotModelled(pc_wrap)`: the next pc would reach 2^32 (10_state.md R28). Raised by `fetch`. Safe. -/
  | pcWrap
  /-- An IT state that no IT instruction produces (43_and_r_operation.md R172, U16): a T32 instruction in an IT block whose
  condition is `1111`, raised by the T1 and T2 meanings; a nonzero IT state in A32, raised by `fetchDecode`. Safe. -/
  | illFormedIT
  deriving DecidableEq, Repr

/-- PSTATE after reset. PRESUMED: the family's values where it has them (log 1); DESIGN CHOICE: zero elsewhere
(log 2). -/
def PState.reset : PState :=
  { n := false, z := false, c := false, v := false, q := false, ge := 0#4, it := 0#8, t := false, e := false,
    aMask := true, iMask := true, fMask := true, il := false, pan := false, ssbs := false, dit := false, ss := false,
    mode := .supervisor, el := 1#2 }

/-- The SPSRs after reset. DESIGN CHOICE: zero (log 2). -/
def Spsrs.reset : Spsrs :=
  { fiq := 0#32, irq := 0#32, svc := 0#32, mon := 0#32, abt := 0#32, und := 0#32, hyp := 0#32 }

/-- The machine right after reset. The spec states no reset value (10_state.md R40, 70_reset_and_hazards.md R220):
each is the model's (log 1, 2, 3; `draws` DESIGN CHOICE 0, log 13). -/
def State.reset : State :=
  { regs := Vector.replicate 33 0#32, pc := 0#32, pstate := PState.reset, spsr := Spsrs.reset, exclusive := false,
    imem := [], draws := 0 }

end Sys2Proof.Machine
end

