-- ==== Sys2Proof/Machine/Memory.lean ====
section
/-! DEFINITION. IMEM, a partial map from 32-bit address to byte (00_scope.md R9, 20_memory.md R50), as a list of
cells with strictly rising addresses. An unlisted address holds no byte. -/

namespace Sys2Proof.Machine

/-- The byte at an address, none outside the domain of IMEM (20_memory.md R57). -/
def Memory.read (mem : List Host.Cell) (addr : Nat) : Option Byte :=
  match mem with
  | [] => none
  | cell :: rest => if cell.1 = addr then some cell.2 else Memory.read rest addr

/-- The cells with the byte at `addr` replaced, in rising order. -/
def Memory.insert (mem : List Host.Cell) (addr : Nat) (b : Byte) : List Host.Cell :=
  match mem with
  | [] => [(addr, b)]
  | cell :: rest =>
    if addr < cell.1 then (addr, b) :: cell :: rest
    else if addr = cell.1 then (addr, b) :: rest
    else cell :: Memory.insert rest addr b

/-- A write of one byte; an address outside the space of 2^32 (20_memory.md R50) is none to write. -/
def Memory.write (mem : List Host.Cell) (addr : Nat) (b : Byte) : List Host.Cell :=
  if addr < 2 ^ 32 then Memory.insert mem addr b else mem

/-- A write of bytes at increasing addresses: `MemWrite` on the bytes of its value (00_scope.md R14). No instruction
uses it; it places a program. -/
def Memory.writeBytes (mem : List Host.Cell) (addr : Nat) (bytes : List Byte) : List Host.Cell :=
  match bytes with
  | [] => mem
  | b :: rest => Memory.writeBytes (Memory.write mem addr b) (addr + 1) rest

/-- `MemRead` as the bytes at `addr` to `addr + count - 1` (00_scope.md R14), or the first address that holds none
(20_memory.md R57). -/
def Memory.readBytes (mem : List Host.Cell) (addr : Nat) (count : Nat) : Except Nat (List Byte) :=
  match count with
  | 0 => .ok []
  | k + 1 =>
    match Memory.read mem addr with
    | none => .error addr
    | some b =>
      match Memory.readBytes mem (addr + 1) k with
      | .error a => .error a
      | .ok bs => .ok (b :: bs)

/-- Every address is above `low` and below 2^32, and the addresses rise strictly. -/
def Memory.wfFrom (low : Nat) (mem : List Host.Cell) : Bool :=
  match mem with
  | [] => true
  | cell :: rest => low ≤ cell.1 && cell.1 < 2 ^ 32 && Memory.wfFrom (cell.1 + 1) rest

/-- The canonical form: strictly rising addresses below 2^32. An unlisted address holds no byte, so no entry is one an
unlisted address could stand for. -/
def Memory.wf (mem : List Host.Cell) : Bool :=
  Memory.wfFrom 0 mem

end Sys2Proof.Machine
end

