-- ==== Sys2Proof/Machine/Ops.lean ====
section
/-! DEFINITION. The shared operations over registers, the pc, the IT state and PSTATE: register access
(10_state.md R24, R25), advancing (43_and_r_operation.md R170), writing the PC (R164, R165), raising an exception
(60_exceptions.md R197) and returning from one (R167 to R169). -/

namespace Sys2Proof.Machine

/-! ### Modes -/

/-- The mode numbers (10_state.md R34). -/
def Mode.number (m : Mode) : BitVec 5 :=
  match m with
  | .user => 0b10000#5
  | .fiq => 0b10001#5
  | .irq => 0b10010#5
  | .supervisor => 0b10011#5
  | .monitor => 0b10110#5
  | .abort => 0b10111#5
  | .hyp => 0b11010#5
  | .undefined => 0b11011#5
  | .system => 0b11111#5

/-- The mode a number names (10_state.md R34). -/
def Mode.ofNumber (b : BitVec 5) : Option Mode :=
  match b.toNat with
  | 16 => some .user
  | 17 => some .fiq
  | 18 => some .irq
  | 19 => some .supervisor
  | 22 => some .monitor
  | 23 => some .abort
  | 26 => some .hyp
  | 27 => some .undefined
  | 31 => some .system
  | _ => none

/-- Whether a mode exists: Hyp only with `P_HAVE_EL2` (10_state.md R34). -/
def Mode.implemented (m : Mode) : Bool :=
  match m with
  | .hyp => Config.haveEL2
  | _ => true

/-! ### Registers -/

/-- The index in `regs` of R13 in a mode; R14's is one above, but for Hyp, which has no R14 of its own.
PRESUMED: the family's banks (log 9). -/
def bankBase (m : Mode) : Nat :=
  match m with
  | .user => 13
  | .system => 13
  | .fiq => 20
  | .irq => 22
  | .supervisor => 24
  | .abort => 26
  | .undefined => 28
  | .monitor => 30
  | .hyp => 32

/-- The index in `regs` of register `r`, 0 to 14, in a mode (10_state.md R23); PRESUMED: the family's banks (log 9). -/
def physIndex (m : Mode) (r : Reg) : Nat :=
  if r.toNat < 8 then r.toNat
  else if r.toNat < 13 then (if m = .fiq then r.toNat + 7 else r.toNat)
  else if r.toNat = 13 then bankBase m
  else if m = .hyp then 14 else bankBase m + 1

/-- The physical register at an index. -/
def State.physReg (s : State) (k : Nat) : Word :=
  if h : k < 33 then s.regs[k] else 0#32

/-- The state with the physical register at an index replaced. -/
def State.setPhysReg (s : State) (k : Nat) (v : Word) : State :=
  { s with regs := s.regs.setIfInBounds k v }

/-- `R[n]` as the current mode sees it (10_state.md R24): register 15 reads as the instruction's address plus 8 in
A32, plus 4 in T32, modulo 2^32. -/
def State.readReg (s : State) (r : Reg) : Word :=
  if r = 15#4 then s.pc + (if s.pstate.t then 4#32 else 8#32) else s.physReg (physIndex s.pstate.mode r)

/-- `R[d] = value` for `d` from 0 to 14 (10_state.md R25); register 15 is never written this way. -/
def State.writeReg (s : State) (r : Reg) (v : Word) : State :=
  if r = 15#4 then s else s.setPhysReg (physIndex s.pstate.mode r) v

/-! ### The pc and the IT state -/

/-- The state with another pc. -/
def State.setPc (s : State) (pc : Word) : State :=
  { s with pc := pc }

/-- `ITAdvance()` on ITSTATE (10_state.md R33). -/
def itAdvance (it : BitVec 8) : BitVec 8 :=
  if it.extractLsb' 0 3 = 0#3 then 0#8 else it.extractLsb' 5 3 ++ (it.extractLsb' 0 5 <<< 1)

/-- `InITBlock()` (10_state.md R33). -/
def State.inITBlock (s : State) : Bool :=
  s.pstate.it.extractLsb' 0 4 != 0#4

/-- The end of an A32 instruction that does not branch (43_and_r_operation.md R170). -/
def State.advanceA32 (s : State) : State :=
  s.setPc (s.pc + 4#32)

/-- The end of a T32 instruction of `len` bytes: the pc and the IT state advance (43_and_r_operation.md R170). -/
def State.advanceT32 (s : State) (len : Nat) : State :=
  { s with pc := s.pc + BitVec.ofNat 32 len, pstate := { s.pstate with it := itAdvance s.pstate.it } }

/-! ### Writing the PC -/

/-- The state with the instruction set and the pc of a branch. -/
def State.branchTo (s : State) (t : Bool) (pc : Word) : State :=
  { s with pc := pc, pstate := { s.pstate with t := t } }

/-- An address with bit 0 cleared: `address[31:1] : 0`. -/
def alignHalf (a : Word) : Word :=
  a.extractLsb' 1 31 ++ 0#1

/-- An address with bits 1 and 0 cleared: `address[31:2] : 00`. -/
def alignWord (a : Word) : Word :=
  a.extractLsb' 2 30 ++ 0#2

/-- `BXWritePC`, the interworking branch (43_and_r_operation.md R165). Which behaviour a target with bits 1:0 of `10`
gets is the implementation's (log 8). -/
def bxWritePC (s : State) (address : Word) : State :=
  if address.getLsbD 0 then s.branchTo true (alignHalf address)
  else if address.getLsbD 1 then
    match Config.a32UnalignedBranch with
    | .forceAlign => s.branchTo false (alignWord address)
    | .faultAtTarget => s.branchTo false address
  else s.branchTo false address

/-- `ALUWritePC` (43_and_r_operation.md R164): interworking in A32, a plain branch in T32. -/
def aluWritePC (s : State) (address : Word) : State :=
  if s.pstate.t then s.setPc (alignHalf address) else bxWritePC s address

/-! ### Exceptions -/

/-- Taking an Undefined Instruction exception: `raise Undefined`, terminal, because no source describes exception
entry (60_exceptions.md R191, R197). Log 10. -/
def raiseUndefined : Host.Outcome State Fault Refusal :=
  .fault .undefined

/-- `SPSR_<current_mode>`; User and System mode have none (10_state.md R35). -/
def State.currentSpsr (s : State) : Option Word :=
  match s.pstate.mode with
  | .user => none
  | .system => none
  | .fiq => some s.spsr.fiq
  | .irq => some s.spsr.irq
  | .supervisor => some s.spsr.svc
  | .monitor => some s.spsr.mon
  | .abort => some s.spsr.abt
  | .undefined => some s.spsr.und
  | .hyp => some s.spsr.hyp

/-- The IT bits of an SPSR, `spsr[15:10] : spsr[26:25]` (10_state.md R36). -/
def spsrIT (spsr : Word) : BitVec 8 :=
  spsr.extractLsb' 10 6 ++ spsr.extractLsb' 25 2

/-- The T bit of an SPSR (10_state.md R36). -/
def spsrT (spsr : Word) : Bool :=
  spsr.getLsbD 5

/-- The CPSR, the register view of PSTATE (10_state.md R36, 90_conflicts.md C6): the RES0 bits read 0, M[4] reads 1. -/
def PState.cpsr (p : PState) : Word :=
  BitVec.ofBool p.n ++ BitVec.ofBool p.z ++ BitVec.ofBool p.c ++ BitVec.ofBool p.v ++ BitVec.ofBool p.q ++ 0#3 ++
    BitVec.ofBool (p.ssbs && Config.haveSSBS) ++ BitVec.ofBool (p.pan && Config.havePAN) ++
    BitVec.ofBool (p.dit && Config.haveDIT) ++ 0#1 ++ p.ge ++ 0#6 ++ BitVec.ofBool p.e ++ BitVec.ofBool p.aMask ++
    BitVec.ofBool p.iMask ++ BitVec.ofBool p.fMask ++ 0#1 ++ p.mode.number

/-- The level of the modes that are at "EL1, or EL3 when EL3 uses AArch32" (60_exceptions.md R201), seen from a mode: one
of them is at its own level, from Monitor mode the implementation decides, and from User and Hyp mode it is EL1
(log 11). -/
def privilegedLevel (p : PState) : BitVec 2 :=
  match p.mode with
  | .user => 1#2
  | .hyp => 1#2
  | .monitor => if Config.el3UsesAArch32 then 3#2 else 1#2
  | _ => p.el

/-- The Exception level of a mode a return goes to (60_exceptions.md R201). -/
def returnLevel (p : PState) (target : Mode) : BitVec 2 :=
  match target with
  | .user => 0#2
  | .hyp => 2#2
  | .monitor => 3#2
  | _ => privilegedLevel p

/-- Whether the current configuration allows a return to a mode and its security state (43_and_r_operation.md R169): the
implementation's answer for every return from EL2 or EL3, whatever the target. From EL0 or EL1 a return that goes to no
higher level stays in the security state it is in and reaches no mode that can be absent (DEDUCED, log 11). -/
def configAllows (p : PState) (target : Mode) : Bool :=
  p.el.toNat < 2 || Config.securityAllows p.mode.number p.el target.number

/-- The mode a legal return with this SPSR goes to, none where the return is an illegal return event
(43_and_r_operation.md R169): no implemented mode, AArch64 state, a higher Exception level, or a mode the
configuration does not allow. -/
def returnTarget (p : PState) (spsr : Word) : Option Mode :=
  match Mode.ofNumber (spsr.extractLsb' 0 5) with
  | none => none
  | some target =>
    if p.el.toNat < (returnLevel p target).toNat then none
    else if !target.implemented then none
    else if !configAllows p target then none
    else some target

/-- PSTATE with the fields every return restores from the SPSR, legal or not (43_and_r_operation.md R168 (3)); `draw`
picks the free value of SS (log 13). -/
def restorePState (draw : Nat) (p : PState) (spsr : Word) : PState :=
  { p with
    n := spsr.getLsbD 31
    z := spsr.getLsbD 30
    c := spsr.getLsbD 29
    v := spsr.getLsbD 28
    q := spsr.getLsbD 27
    it := spsrIT spsr
    ge := spsr.extractLsb' 16 4
    e := spsr.getLsbD 9
    aMask := spsr.getLsbD 8
    iMask := spsr.getLsbD 7
    fMask := spsr.getLsbD 6
    t := spsrT spsr
    pan := if Config.havePAN then spsr.getLsbD 22 else p.pan
    dit := if Config.haveDIT then spsr.getLsbD 21 else p.dit
    ssbs := if Config.haveSSBS then spsr.getLsbD 23 else p.ssbs
    ss := Config.ssAfterReturn draw spsr }

/-- PSTATE with the mode, the Exception level and IL a return leaves (43_and_r_operation.md R168 (2)). -/
def returnMode (p : PState) (spsr : Word) : PState :=
  match returnTarget p spsr with
  | some target => { p with mode := target, el := returnLevel p target, il := spsr.getLsbD 20 }
  | none => { p with il := true }

/-- `ExceptionReturn(address, spsr)` (43_and_r_operation.md R168): PSTATE restored, the local exclusive monitor cleared,
the target aligned for the restored instruction set. Log 6. -/
def exceptionReturn (s : State) (address spsr : Word) : State :=
  { s with
    pstate := restorePState s.draws (returnMode s.pstate spsr) spsr
    draws := s.draws + 1
    exclusive := false
    pc := if spsrT spsr then alignHalf address else alignWord address }

/-- `ALUExceptionReturn` (43_and_r_operation.md R167): UNDEFINED in Hyp mode, the implementation's choice in User and
System mode (log 7), an exception return elsewhere. -/
def aluExceptionReturn (s : State) (address : Word) : Host.Outcome State Fault Refusal :=
  if s.pstate.mode = .hyp then raiseUndefined
  else
    match s.currentSpsr with
    | some spsr => .next (exceptionReturn s address spsr)
    | none =>
      match Config.aluExcReturnUsrSys with
      | .undefined => raiseUndefined
      | .nop => .next s.advanceA32

end Sys2Proof.Machine
end

