-- ==== Sys2Proof/Machine/Flags.lean ====
section
/-! DEFINITION. The flags: evaluating a condition (43_and_r_operation.md R151, R152) and setting N, Z, C from a
result (R162, R163). -/

namespace Sys2Proof.Machine

/-- Whether a condition passes on the flags (43_and_r_operation.md R152). -/
def condHolds (cond : Cond) (p : PState) : Bool :=
  match cond with
  | .eq => p.z
  | .ne => !p.z
  | .cs => p.c
  | .cc => !p.c
  | .mi => p.n
  | .pl => !p.n
  | .vs => p.v
  | .vc => !p.v
  | .hi => p.c && !p.z
  | .ls => !p.c || p.z
  | .ge => p.n == p.v
  | .lt => p.n != p.v
  | .gt => !p.z && p.n == p.v
  | .le => p.z || p.n != p.v
  | .al => true

/-- The condition of the current T32 instruction: `IT[7:4]` in an IT block, always outside one (10_state.md R33,
43_and_r_operation.md R151); none where an ill-formed IT state names `1111` (log 15). -/
def State.itCond (s : State) : Option Cond :=
  if s.inITBlock then Cond.ofBits (s.pstate.it.extractLsb' 4 4) else some .al

/-- `IsZeroBit` (43_and_r_operation.md R162). -/
def isZeroBit (x : Word) : Bool :=
  x == 0#32

/-- The flag update of R163: N and Z from the result, C from the shifter, V unchanged. -/
def State.setNZC (s : State) (result : Word) (carry : Bool) : State :=
  { s with pstate := { s.pstate with n := result.getLsbD 31, z := isZeroBit result, c := carry } }

end Sys2Proof.Machine
end

