-- ==== Sys2Proof/Machine/Operands.lean ====
section
/-! DEFINITION. The shifted second operand: `Shift_C` and the five shifts (43_and_r_operation.md R154 to R160).
Each answers the shifted value and the carry out. -/

namespace Sys2Proof.Machine

/-- `LSL_C`, for amounts 1 to 31 (43_and_r_operation.md R156). -/
def lslC (x : Word) (amount : Nat) : Word × Bool :=
  (x <<< amount, x.getLsbD (32 - amount))

/-- `LSR_C`, for amounts 1 to 32 (43_and_r_operation.md R157). -/
def lsrC (x : Word) (amount : Nat) : Word × Bool :=
  (x >>> amount, x.getLsbD (amount - 1))

/-- `ASR_C`, for amounts 1 to 32 (43_and_r_operation.md R158). -/
def asrC (x : Word) (amount : Nat) : Word × Bool :=
  (x.sshiftRight amount, x.getLsbD (amount - 1))

/-- `ROR_C`, for amounts 1 to 31 (43_and_r_operation.md R159). -/
def rorC (x : Word) (amount : Nat) : Word × Bool :=
  let result := (x >>> amount) ||| (x <<< (32 - amount))
  (result, result.getLsbD 31)

/-- `RRX_C` (43_and_r_operation.md R160). -/
def rrxC (x : Word) (carryIn : Bool) : Word × Bool :=
  (BitVec.ofBool carryIn ++ x.extractLsb' 1 31, x.getLsbD 0)

/-- `Shift_C` (43_and_r_operation.md R155). -/
def shiftC (x : Word) (shift : SRType) (amount : Nat) (carryIn : Bool) : Word × Bool :=
  if amount = 0 then (x, carryIn)
  else
    match shift with
    | .lsl => lslC x amount
    | .lsr => lsrC x amount
    | .asr => asrC x amount
    | .ror => rorC x amount
    | .rrx => rrxC x carryIn

end Sys2Proof.Machine
end

