-- ==== Sys2Proof/Machine/And.lean ====
section
/-! DEFINITION. The execute pseudocode that all nine encodings share (43_and_r_operation.md R150), with the step's end
(R170), for the A32 class and for the T32 classes. -/

namespace Sys2Proof.Machine

/-- `(shifted, carry)` and `result = R[n] AND shifted` (43_and_r_operation.md R150): the result and the carry. -/
def andResult (s : State) (n m : Reg) (shift : SRType) (amount : Nat) : Word × Bool :=
  let sh := shiftC (s.readReg m) shift amount s.pstate.c
  (s.readReg n &&& sh.1, sh.2)

/-- The `d != 15` branch of R150: the destination, and the flags when `setflags`. -/
def writeResult (s : State) (setflags : Bool) (d : Reg) (result : Word) (carry : Bool) : State :=
  if setflags then (s.writeReg d result).setNZC result carry else s.writeReg d result

/-- R150 for class A1, with the condition of the `cond` field. A passing condition with the PC as destination branches
(AND, 40_and_r_a1.md R106) or returns from an exception (ANDS, R107). -/
def executeA1 (cond : Cond) (setflags : Bool) (d n m : Reg) (shift : SRType) (amount : Nat) (s : State) :
    Host.Outcome State Fault Refusal :=
  if condHolds cond s.pstate then
    let r := andResult s n m shift amount
    if d = 15#4 then
      if setflags then aluExceptionReturn s r.1 else .next (aluWritePC s r.1)
    else .next (writeResult s setflags d r.1 r.2).advanceA32
  else .next s.advanceA32

/-- R150 for the T32 classes, `d` being 0 to 14, with the condition of the IT state. -/
def executeT32 (len : Nat) (setflags : Bool) (d n m : Reg) (shift : SRType) (amount : Nat) (s : State) :
    Host.Outcome State Fault Refusal :=
  match s.itCond with
  | none => .refused .illFormedIT
  | some cond =>
    if condHolds cond s.pstate then
      let r := andResult s n m shift amount
      .next ((writeResult s setflags d r.1 r.2).advanceT32 len)
    else .next (s.advanceT32 len)

/-- R150 for class T2 after the checks of 42_and_r_t2.md R130, in their order; `word` is the instruction's, for the
refusal of the term that stands for TST. -/
def executeT2 (word : Word) (setflags : Bool) (d n m : Reg) (sbz : Bool) (shift : SRType) (amount : Nat) (s : State) :
    Host.Outcome State Fault Refusal :=
  if d = 15#4 ∧ setflags = true then .refused (.notInScope word)
  else if sbz then .refused (.unpredictable .t2SbzBit15)
  else if d = 15#4 ∨ n = 15#4 ∨ m = 15#4 then .refused (.unpredictable .t2PcOperand)
  else executeT32 4 setflags d n m shift amount s

end Sys2Proof.Machine
end

