-- ==== Sys2Proof/Machine/AndA1.lean ====
section
/-! DEFINITION. The four encodings of class A1 (40_and_r_a1.md). -/

namespace Sys2Proof.Machine

/-- `AND_r_A1_RRX` (40_and_r_a1.md R101). -/
def execAndRA1Rrx (cond : Cond) (d n m : Reg) (s : State) : Host.Outcome State Fault Refusal :=
  executeA1 cond false d n m .rrx 1 s

/-- `AND_r_A1` (40_and_r_a1.md R102). -/
def execAndRA1 (cond : Cond) (d n m : Reg) (shift : SRType) (amount : Nat) (s : State) :
    Host.Outcome State Fault Refusal :=
  executeA1 cond false d n m shift amount s

/-- `ANDS_r_A1_RRX` (40_and_r_a1.md R103). -/
def execAndsRA1Rrx (cond : Cond) (d n m : Reg) (s : State) : Host.Outcome State Fault Refusal :=
  executeA1 cond true d n m .rrx 1 s

/-- `ANDS_r_A1` (40_and_r_a1.md R104). -/
def execAndsRA1 (cond : Cond) (d n m : Reg) (shift : SRType) (amount : Nat) (s : State) :
    Host.Outcome State Fault Refusal :=
  executeA1 cond true d n m shift amount s

end Sys2Proof.Machine
end

