-- ==== Sys2Proof/Machine/AndT1.lean ====
section
/-! DEFINITION. The encoding of class T1 (41_and_r_t1.md). -/

namespace Sys2Proof.Machine

/-- A register number of class T1 as one of the sixteen (10_state.md R22). -/
def lowReg (r : LowReg) : Reg :=
  r.setWidth 4

/-- `AND_r_T1`: outside an IT block it sets the flags and always executes (41_and_r_t1.md R121), inside one it sets
none and executes under the block's condition (R122). -/
def execAndRT1 (dn m : LowReg) (s : State) : Host.Outcome State Fault Refusal :=
  executeT32 2 (!s.inITBlock) (lowReg dn) (lowReg dn) (lowReg m) .lsl 0 s

end Sys2Proof.Machine
end

