-- ==== Sys2Proof/Machine/AndT2.lean ====
section
/-! DEFINITION. The four encodings of class T2 (42_and_r_t2.md). -/

namespace Sys2Proof.Machine

/-- `AND_r_T2_RRX` (42_and_r_t2.md R131). -/
def execAndRT2Rrx (d n m : Reg) (sbz : Bool) (s : State) : Host.Outcome State Fault Refusal :=
  executeT2 (encodeWord (.andRT2Rrx d n m sbz)) false d n m sbz .rrx 1 s

/-- `AND_r_T2` (42_and_r_t2.md R132). -/
def execAndRT2 (d n m : Reg) (sbz : Bool) (shift : SRType) (amount : Nat) (s : State) :
    Host.Outcome State Fault Refusal :=
  executeT2 (encodeWord (.andRT2 d n m sbz shift amount)) false d n m sbz shift amount s

/-- `ANDS_r_T2_RRX` (42_and_r_t2.md R133). -/
def execAndsRT2Rrx (d n m : Reg) (sbz : Bool) (s : State) : Host.Outcome State Fault Refusal :=
  executeT2 (encodeWord (.andsRT2Rrx d n m sbz)) true d n m sbz .rrx 1 s

/-- `ANDS_r_T2` (42_and_r_t2.md R134). -/
def execAndsRT2 (d n m : Reg) (sbz : Bool) (shift : SRType) (amount : Nat) (s : State) :
    Host.Outcome State Fault Refusal :=
  executeT2 (encodeWord (.andsRT2 d n m sbz shift amount)) true d n m sbz shift amount s

end Sys2Proof.Machine
end

