-- ==== Sys2Proof/Machine/Dispatch.lean ====
section
/-! DEFINITION. One arm per instruction, each one direct call of its meaning. -/

namespace Sys2Proof.Machine

def exec (i : Instr) (s : State) : Host.Outcome State Fault Refusal :=
  match i with
  | .andRA1Rrx cond d n m => Sys2Proof.Machine.execAndRA1Rrx cond d n m s
  | .andRA1 cond d n m shift amount => Sys2Proof.Machine.execAndRA1 cond d n m shift amount s
  | .andsRA1Rrx cond d n m => Sys2Proof.Machine.execAndsRA1Rrx cond d n m s
  | .andsRA1 cond d n m shift amount => Sys2Proof.Machine.execAndsRA1 cond d n m shift amount s
  | .andRT1 dn m => Sys2Proof.Machine.execAndRT1 dn m s
  | .andRT2Rrx d n m sbz => Sys2Proof.Machine.execAndRT2Rrx d n m sbz s
  | .andRT2 d n m sbz shift amount => Sys2Proof.Machine.execAndRT2 d n m sbz shift amount s
  | .andsRT2Rrx d n m sbz => Sys2Proof.Machine.execAndsRT2Rrx d n m sbz s
  | .andsRT2 d n m sbz shift amount => Sys2Proof.Machine.execAndsRT2 d n m sbz shift amount s

end Sys2Proof.Machine
end

