-- ==== Sys2Proof/Machine/Fetch.lean ====
section
/-! DEFINITION. Fetching and decoding the instruction at the pc (43_and_r_operation.md R171), and placing one there. -/

namespace Sys2Proof.Machine

/-- Whether the pc is aligned for the instruction set (10_state.md R27, 20_memory.md R55). -/
def State.pcAligned (s : State) : Bool :=
  if s.pstate.t then !s.pc.getLsbD 0 else !s.pc.getLsbD 0 && !s.pc.getLsbD 1

/-- Whether the pc after an instruction of `len` bytes would reach 2^32 (10_state.md R28). -/
def State.pcWraps (s : State) (len : Nat) : Bool :=
  2 ^ 32 ≤ s.pc.toNat + len

/-- The `count` bytes at `addr` of IMEM, or a fetch fault at the first one missing (20_memory.md R57). -/
def fetchBytes (s : State) (addr count : Nat) : Host.Outcome (List Byte) Fault Refusal :=
  match Memory.readBytes s.imem addr count with
  | .ok bs => .next bs
  | .error a => .fault (.fetch (BitVec.ofNat 32 a))

/-- The four bytes of an A32 instruction (20_memory.md R52), with the wrap check after them (43_and_r_operation.md
R171). -/
def fetchA32 (s : State) : Host.Outcome (List Byte) Fault Refusal :=
  match fetchBytes s s.pc.toNat 4 with
  | .next bs => if s.pcWraps 4 then .refused .pcWrap else .next bs
  | .fault f => .fault f
  | .refused r => .refused r

/-- The second halfword of a T32 instruction whose first is `bs`. -/
def fetchSecondHalf (s : State) (bs : List Byte) : Host.Outcome (List Byte) Fault Refusal :=
  match fetchBytes s (s.pc.toNat + 2) 2 with
  | .next bs' => .next (bs ++ bs')
  | .fault f => .fault f
  | .refused r => .refused r

/-- Whether a T32 instruction's first two bytes begin a 32-bit instruction (20_memory.md R53). -/
def startsWide (bs : List Byte) : Bool :=
  match bs with
  | b0 :: b1 :: _ => isWide (half b0 b1)
  | _ => false

/-- The bytes of a T32 instruction: the first halfword, its length, the wrap check, the second halfword
(20_memory.md R53, 43_and_r_operation.md R171). -/
def fetchT32 (s : State) : Host.Outcome (List Byte) Fault Refusal :=
  match fetchBytes s s.pc.toNat 2 with
  | .next bs =>
    if startsWide bs then (if s.pcWraps 4 then .refused .pcWrap else fetchSecondHalf s bs)
    else if s.pcWraps 2 then .refused .pcWrap
    else .next bs
  | .fault f => .fault f
  | .refused r => .refused r

/-- The bytes of the instruction at the pc: the alignment check first (20_memory.md R56), then the fetch of the
instruction set in force. -/
def fetch (s : State) : Host.Outcome (List Byte) Fault Refusal :=
  if s.pcAligned then (if s.pstate.t then fetchT32 s else fetchA32 s) else .fault (.fetch s.pc)

/-- The instruction in fetched bytes, or the refusal of what is not in scope (30_encoding.md R83). Bytes too few to
decode do not come from `fetch`. -/
def decodeFetched (s : State) (bs : List Byte) : Host.Outcome Instr Fault Refusal :=
  match decode s.pstate.t bs with
  | .instr i _ => .next i
  | .notInScope word => .refused (.notInScope word)
  | .truncated => .fault (.fetch s.pc)

/-- Whether the IT state is zero where it must be, in A32 state (10_state.md R33, 43_and_r_operation.md R172). -/
def State.itFitsSet (s : State) : Bool :=
  s.pstate.t || s.pstate.it == 0#8

/-- The instruction at the pc. In Illegal Execution state it takes that exception instead (43_and_r_operation.md R169;
PRESUMED: after the fetch and before the decode, log 12). A nonzero IT state in A32, which only an exception
return can leave, is refused (U16 of 93_implementation_defined.md; DESIGN CHOICE: at this place, log 15). -/
def fetchDecode (s : State) : Host.Outcome Instr Fault Refusal :=
  match fetch s with
  | .next bs =>
    if s.pstate.il then .fault .illegalState
    else if s.itFitsSet then decodeFetched s bs
    else .refused .illFormedIT
  | .fault f => .fault f
  | .refused r => .refused r

/-- The state with an instruction placed at the pc and the instruction set that runs it selected, with no IT block in A32:
`w` is numbered as spec/opcode_table.json numbers it. Log 4, 5. -/
def placeTableWord (s : State) (nbits w : Nat) : State :=
  { s with
    imem := Memory.writeBytes s.imem s.pc.toNat (tableWordBytes nbits w)
    pstate :=
      { s.pstate with
        t := tableWordIsT32 nbits w
        it := if tableWordIsT32 nbits w then s.pstate.it else 0#8 } }

end Sys2Proof.Machine
end

