-- ==== Sys2Proof/Machine/Step.lean ====
section
/-! DEFINITION. One step (43_and_r_operation.md R171): fetch and decode, then the instruction's meaning, which also
advances the pc. -/

namespace Sys2Proof.Machine

/-- One step of the machine (43_and_r_operation.md R171). -/
def step (s : State) : Host.Outcome State Fault Refusal :=
  match fetchDecode s with
  | .next i => exec i s
  | .fault f => .fault f
  | .refused r => .refused r

/-- `s` with the instruction whose bits are `w` placed where `step` fetches next. Log 4, 5. -/
def State.withFetchWord (s : State) (nbits w : Nat) : State :=
  placeTableWord s nbits w

end Sys2Proof.Machine
end

