-- ==== Sys2Proof/Safety.lean ====
section
/-! DEFINITION. The terms claims use: launch premises, the invariant of every step, the end of a run, what a step
leaves unchanged, and the shifted operand bit by bit. -/

namespace Sys2Proof.Machine

/-! ### Launch premises and the invariant -/

/-- Premise P3 of 70_reset_and_hazards.md R222: where `IT[3:0]` is not zero, the IT state is one that the IT instruction can
produce or `ITAdvance` can reach from one: its condition is not `1111` and, where its condition is always, its mask has one
bit. The last part is DEDUCED (log 15): without it `ITAdvance` reaches the condition `1111`. -/
def itWellFormed (it : BitVec 8) : Bool :=
  let cond := it.extractLsb' 4 4
  let mask := it.extractLsb' 0 4
  mask == 0#4 ||
    (cond != 15#4 && (cond != 14#4 || mask == 8#4 || mask == 4#4 || mask == 2#4 || mask == 1#4))

/-- An SPSR whose IT and T bits, which an exception return restores, meet P2 and P3 (log 15). -/
def spsrWellFormed (spsr : Word) : Bool :=
  itWellFormed (spsrIT spsr) && (spsrT spsr || spsrIT spsr == 0#8)

/-- The launch premises that a state can meet (70_reset_and_hazards.md R222 P1 to P3). The others are about the world:
P4 holds since no step writes IMEM, P5 to P7 since the model has no interrupt, no AArch64 state and no state without a
value. -/
structure State.LaunchPremises (s : State) : Prop where
  aligned : s.pcAligned = true
  a32HasNoIT : s.pstate.t = false → s.pstate.it = 0#8
  itForm : itWellFormed s.pstate.it = true

/-- The Exception levels a mode can be at (60_exceptions.md R201). -/
def Mode.hasLevel (m : Mode) (el : BitVec 2) : Bool :=
  match m with
  | .user => el == 0#2
  | .hyp => el == 2#2
  | .monitor => el == 3#2
  | _ => el == 1#2 || el == 3#2

/-- What every step keeps. `pcBit1` is the alignment of 10_state.md R27, but for the implementations on which a branch
leaves an unaligned A32 target for the next fetch to fault on (43_and_r_operation.md R165). -/
structure State.Inv (s : State) : Prop where
  memory : Memory.wf s.imem = true
  pcBit0 : s.pc.getLsbD 0 = false
  pcBit1 : s.pstate.t = false → s.pc.getLsbD 1 = true → Config.a32UnalignedBranch = .faultAtTarget
  a32HasNoIT : s.pstate.t = false → s.pstate.it = 0#8
  itForm : itWellFormed s.pstate.it = true
  level : s.pstate.mode.hasLevel s.pstate.el = true
  hypExists : s.pstate.mode.implemented = true
  spsrFiq : spsrWellFormed s.spsr.fiq = true
  spsrIrq : spsrWellFormed s.spsr.irq = true
  spsrSvc : spsrWellFormed s.spsr.svc = true
  spsrMon : spsrWellFormed s.spsr.mon = true
  spsrAbt : spsrWellFormed s.spsr.abt = true
  spsrUnd : spsrWellFormed s.spsr.und = true

/-- The end of a run, a convention of claims (70_reset_and_hazards.md R228): no instruction is fetched at `exit`. -/
def State.atExit (s : State) (exit : Word) (exitT : Bool) : Bool :=
  s.pc == exit && s.pstate.t == exitT

/-- A safe outcome of a step: a next state. -/
def isNext (o : Host.Outcome State Fault Refusal) : Bool :=
  match o with
  | .next _ => true
  | .fault _ => false
  | .refused _ => false

/-! ### What a step leaves unchanged -/

/-- Nothing changes outside the general-purpose registers, the pc and PSTATE: the SPSRs, the exclusive monitor, every
byte of memory and the count of free values. -/
def sameOutside (s t : State) : Prop :=
  t.spsr = s.spsr ∧ t.exclusive = s.exclusive ∧ t.draws = s.draws ∧
    ∀ a, Memory.read t.imem a = Memory.read s.imem a

/-- No general-purpose register changes, in any bank. -/
def sameRegisters (s t : State) : Prop :=
  ∀ k, k < 33 → t.physReg k = s.physReg k

/-- No general-purpose register changes, in any bank, but register `d` of the current mode. -/
def sameRegistersBut (d : Reg) (s t : State) : Prop :=
  ∀ k, k < 33 → k ≠ physIndex s.pstate.mode d → t.physReg k = s.physReg k

/-- The condition and the registers in an A1 word (30_encoding.md R71). -/
def fieldsA1 (w : Word) (cond : Cond) (d n m : Reg) : Prop :=
  w.extractLsb' 28 4 = cond.toBits ∧ w.extractLsb' 16 4 = n ∧ w.extractLsb' 12 4 = d ∧ w.extractLsb' 0 4 = m

/-- The registers and bit 15 in a T2 value (30_encoding.md R73). -/
def fieldsT2 (w : Word) (d n m : Reg) (sbz : Bool) : Prop :=
  w.extractLsb' 16 4 = n ∧ w.getLsbD 15 = sbz ∧ w.extractLsb' 8 4 = d ∧ w.extractLsb' 0 4 = m

/-- The registers an instruction names. -/
def registersOf (i : Instr) : List Reg :=
  match i with
  | .andRA1Rrx _ d n m => [d, n, m]
  | .andRA1 _ d n m _ _ => [d, n, m]
  | .andsRA1Rrx _ d n m => [d, n, m]
  | .andsRA1 _ d n m _ _ => [d, n, m]
  | .andRT1 dn m => [lowReg dn, lowReg m]
  | .andRT2Rrx d n m _ => [d, n, m]
  | .andRT2 d n m _ _ _ => [d, n, m]
  | .andsRT2Rrx d n m _ => [d, n, m]
  | .andsRT2 d n m _ _ _ => [d, n, m]

/-- Whether an instruction is ANDS to the PC in class A1 (40_and_r_a1.md R107). -/
def isAndsToPc (i : Instr) : Bool :=
  match i with
  | .andRA1Rrx _ _ _ _ => false
  | .andRA1 _ _ _ _ _ _ => false
  | .andsRA1Rrx _ d _ _ => d == 15#4
  | .andsRA1 _ d _ _ _ _ => d == 15#4
  | .andRT1 _ _ => false
  | .andRT2Rrx _ _ _ _ => false
  | .andRT2 _ _ _ _ _ _ => false
  | .andsRT2Rrx _ _ _ _ => false
  | .andsRT2 _ _ _ _ _ _ => false

/-- The state in another mode at another Exception level. -/
def State.inMode (s : State) (mode : Mode) (el : BitVec 2) : State :=
  { s with pstate := { s.pstate with mode := mode, el := el } }

/-! ### The shifted operand -/

/-- Bit `i` of the operand `x` shifted, `c` being the carry in (43_and_r_operation.md R155 to R160). -/
def shiftedBit (shift : SRType) (amount : Nat) (x : Word) (c : Bool) (i : Nat) : Bool :=
  match shift with
  | .lsl => decide (amount ≤ i) && x.getLsbD (i - amount)
  | .lsr => x.getLsbD (i + amount)
  | .asr => if i + amount < 32 then x.getLsbD (i + amount) else x.getLsbD 31
  | .ror => x.getLsbD ((i + amount) % 32)
  | .rrx => if i = 31 then c else x.getLsbD (i + 1)

/-- The new C of an instruction that sets the flags, by shift form (the table of 43_and_r_operation.md R163). -/
def shiftedCarry (shift : SRType) (amount : Nat) (x : Word) (c : Bool) : Bool :=
  match shift with
  | .lsl => if amount = 0 then c else x.getLsbD (32 - amount)
  | .lsr => x.getLsbD (amount - 1)
  | .asr => x.getLsbD (amount - 1)
  | .ror => x.getLsbD (amount - 1)
  | .rrx => x.getLsbD 0

/-- Register `d` of `t` holds `R[n] AND shifted` of `s` (43_and_r_operation.md R150), bit by bit. -/
def holdsAnd (s t : State) (d n m : Reg) (shift : SRType) (amount : Nat) : Prop :=
  ∀ i, i < 32 → (t.readReg d).getLsbD i =
    ((s.readReg n).getLsbD i && shiftedBit shift amount (s.readReg m) s.pstate.c i)

/-- PSTATE with N and Z of the value and the given C, everything else as it was (43_and_r_operation.md R163). -/
def flagsOf (p : PState) (value : Word) (c : Bool) : PState :=
  { p with n := value.getLsbD 31, z := decide (value = 0#32), c := c }

/-- PSTATE with the IT state advanced (10_state.md R33). -/
def itAdvanced (p : PState) : PState :=
  { p with it := itAdvance p.it }

end Sys2Proof.Machine
end

