-- ==== Sys2Proof/Certificates/Slice0/Obligations.lean ====
section
/-! DEFINITION. The statements for the provers, one per rule or group of rules of spec/. OBLIGATIONS.json says of each
what it formalises. -/

open Sys2Proof Sys2Proof.Machine

/-! ### Encoding -/

/-- A step runs the decoded instruction (43_and_r_operation.md R171): an A32 word, a T32 halfword or a 32-bit T32 value
at an aligned pc below the wrap, outside Illegal Execution state (whose check stands before the decode by the model's
choice, log 12), in A32 with no IT state (premise P2; log 15). -/
def Obligations.StepRunsTheDecodedInstruction : Prop :=
  ∀ (s : State) (i : Instr) (b0 b1 b2 b3 : Byte),
    s.pcAligned = true → s.pstate.il = false →
    Memory.read s.imem s.pc.toNat = some b0 → Memory.read s.imem (s.pc.toNat + 1) = some b1 →
    (s.pstate.t = false → s.pstate.it = 0#8 → s.pc.toNat + 4 < 2 ^ 32 →
        Memory.read s.imem (s.pc.toNat + 2) = some b2 → Memory.read s.imem (s.pc.toNat + 3) = some b3 →
        decodeA1 (wordA32 b0 b1 b2 b3) = some i → step s = exec i s) ∧
      (s.pstate.t = true → isWide (half b0 b1) = false → s.pc.toNat + 2 < 2 ^ 32 →
        decodeT1 (half b0 b1) = some i → step s = exec i s) ∧
      (s.pstate.t = true → isWide (half b0 b1) = true → s.pc.toNat + 4 < 2 ^ 32 →
        Memory.read s.imem (s.pc.toNat + 2) = some b2 → Memory.read s.imem (s.pc.toNat + 3) = some b3 →
        decodeT2 (wordT32 b0 b1 b2 b3) = some i → step s = exec i s)

/-- One written word of each row decodes to its instruction (the worked examples of R101 to R104, R121, R131 to R134). -/
def Obligations.WrittenWordsDecode : Prop :=
  decodeTableWord 32 0xE0076068 = some (.andRA1Rrx .al 6#4 7#4 8#4) ∧
  decodeTableWord 32 0xE0043205 = some (.andRA1 .al 3#4 4#4 5#4 .lsl 4) ∧
  decodeTableWord 32 0xE0176068 = some (.andsRA1Rrx .al 6#4 7#4 8#4) ∧
  decodeTableWord 32 0xE0143025 = some (.andsRA1 .al 3#4 4#4 5#4 .lsr 32) ∧
  decodeTableWord 16 0x4008 = some (.andRT1 0#3 1#3) ∧
  decodeTableWord 32 0xEA09083A = some (.andRT2Rrx 8#4 9#4 10#4 false) ∧
  decodeTableWord 32 0xEA09283A = some (.andRT2 8#4 9#4 10#4 false .ror 8) ∧
  decodeTableWord 32 0xEA19083A = some (.andsRT2Rrx 8#4 9#4 10#4 false) ∧
  decodeTableWord 32 0xEA19081A = some (.andsRT2 8#4 9#4 10#4 false .lsr 32)

/-- Decoding the bytes of a well-formed instruction gives it back, with the bytes after it (30_encoding.md R71 to R79). -/
def Obligations.DecodeOfEncodeIsTheInstruction : Prop :=
  ∀ (i : Instr) (rest : List Byte), i.wellFormed = true → decode i.isT32 (encode i ++ rest) = .instr i rest

/-- A word that decodes is the encoding of what it decodes to: no bit of it is dropped. -/
def Obligations.EncodeOfDecodeIsTheWord : Prop :=
  (∀ (w : Word) (i : Instr), decodeA1 w = some i → encodeWord i = w) ∧
  (∀ (h : Half) (i : Instr), decodeT1 h = some i → encodeWord i = h.setWidth 32) ∧
  (∀ (w : Word) (i : Instr), decodeT2 w = some i → encodeWord i = w)

/-- Whatever decodes is well-formed and of the instruction set in force: no amount outside the ranges of
43_and_r_operation.md R154 reaches the shifter. -/
def Obligations.DecodedInstructionsAreWellFormed : Prop :=
  ∀ (t : Bool) (bytes rest : List Byte) (i : Instr), decode t bytes = .instr i rest →
    i.wellFormed = true ∧ i.isT32 = t ∧ bytes.length = i.length + rest.length

/-- The decoder gives a row's instruction exactly on the words that spec/opcode_table.json gives the row. -/
def Obligations.DecoderAgreesWithTheOpcodeTable : Prop :=
  (∀ (w : Word) (i : Instr), decodeA1 w = some i → i.row.holds w = true) ∧
  (∀ (w : Word) (j : Instr), j.isT32 = false → j.row.holds w = true → ∃ i, decodeA1 w = some i ∧ i.row = j.row) ∧
  (∀ (h : Half) (i : Instr), decodeT1 h = some i ↔
    i.row.holds (h.setWidth 32) = true ∧ i = .andRT1 (h.extractLsb' 0 3) (h.extractLsb' 3 3)) ∧
  (∀ (w : Word) (i : Instr), decodeT2 w = some i → i.row.holds w = true) ∧
  (∀ (w : Word) (j : Instr), j.isT32 = true → j.length = 4 → j.row.holds w = true →
    ∃ i, decodeT2 w = some i ∧ i.row = j.row)

/-- No word is two rows' of one instruction set and length (30_encoding.md R74, R75, R85). -/
def Obligations.OpcodeRowsDoNotOverlap : Prop :=
  ∀ (w : Word) (i j : Instr), i.isT32 = j.isT32 → i.length = j.length → i.row.holds w = true → j.row.holds w = true →
    i.row = j.row

/-- An A32 word with `cond == 1111` is not in scope, whatever its other bits (30_encoding.md R80). -/
def Obligations.Cond1111IsNotInScope : Prop :=
  ∀ (w : Word) (rest : List Byte), w.extractLsb' 28 4 = 15#4 → decode false (bytesA32 w ++ rest) = .notInScope w

/-- A T2-format value with `S == 1` and `Rd == 1111`, TST (register), is not in scope (30_encoding.md R75). -/
def Obligations.TstPatternIsNotInScope : Prop :=
  ∀ (w : Word) (rest : List Byte), w &&& 0xFFF00F00#32 = 0xEA100F00#32 →
    decode true (bytesT32 w ++ rest) = .notInScope w

/-- `DecodeImmShift` (30_encoding.md R78), for each shift type and each amount field. -/
def Obligations.DecodeImmShiftGivesTypeAndAmount : Prop :=
  ∀ (imm5 : BitVec 5),
    decodeImmShift 0b00#2 imm5 = (.lsl, imm5.toNat) ∧
    decodeImmShift 0b01#2 imm5 = (.lsr, if imm5.toNat = 0 then 32 else imm5.toNat) ∧
    decodeImmShift 0b10#2 imm5 = (.asr, if imm5.toNat = 0 then 32 else imm5.toNat) ∧
    decodeImmShift 0b11#2 imm5 = (if imm5.toNat = 0 then (.rrx, 1) else (.ror, imm5.toNat))

/-- Amounts 1 to 31 are stored as themselves and 32 as `00000`, and decode to what was stored (30_encoding.md R79). -/
def Obligations.AmountsAreStoredModulo32 : Prop :=
  ∀ (shift : SRType) (amount : Nat), shift.validAmount amount = true → 1 ≤ amount →
    (amountField amount).toNat = (if amount = 32 then 0 else amount) ∧
    decodeImmShift shift.stype (amountField amount) = (shift, amount)

/-! ### Conditions and the shifter -/

/-- The condition table (43_and_r_operation.md R152), the field of each condition included. -/
def Obligations.ConditionTable : Prop :=
  ∀ (p : PState),
    (condHolds .eq p = true ↔ p.z = true) ∧ (condHolds .ne p = true ↔ p.z = false) ∧
    (condHolds .cs p = true ↔ p.c = true) ∧ (condHolds .cc p = true ↔ p.c = false) ∧
    (condHolds .mi p = true ↔ p.n = true) ∧ (condHolds .pl p = true ↔ p.n = false) ∧
    (condHolds .vs p = true ↔ p.v = true) ∧ (condHolds .vc p = true ↔ p.v = false) ∧
    (condHolds .hi p = true ↔ p.c = true ∧ p.z = false) ∧ (condHolds .ls p = true ↔ p.c = false ∨ p.z = true) ∧
    (condHolds .ge p = true ↔ p.n = p.v) ∧ (condHolds .lt p = true ↔ p.n ≠ p.v) ∧
    (condHolds .gt p = true ↔ p.z = false ∧ p.n = p.v) ∧ (condHolds .le p = true ↔ p.z = true ∨ p.n ≠ p.v) ∧
    condHolds .al p = true ∧
    [0#4, 1#4, 2#4, 3#4, 4#4, 5#4, 6#4, 7#4, 8#4, 9#4, 10#4, 11#4, 12#4, 13#4, 14#4, 15#4].map Cond.ofBits =
      [some .eq, some .ne, some .cs, some .cc, some .mi, some .pl, some .vs, some .vc, some .hi, some .ls, some .ge,
        some .lt, some .gt, some .le, some .al, none]

/-- An amount of 0 passes the value and the carry through (43_and_r_operation.md R155). -/
def Obligations.ShiftByZeroPassesThrough : Prop :=
  ∀ (x : Word) (shift : SRType) (c : Bool), shiftC x shift 0 c = (x, c)

/-- LSL (43_and_r_operation.md R156): the value times a power of two modulo 2^32, the carry out bit `32 - n`. -/
def Obligations.LslMultipliesModulo : Prop :=
  ∀ (x : Word) (amount : Nat) (c : Bool), 1 ≤ amount → amount ≤ 31 →
    (shiftC x .lsl amount c).1.toNat = x.toNat * 2 ^ amount % 2 ^ 32 ∧
    (shiftC x .lsl amount c).2 = x.getLsbD (32 - amount) ∧
    ((shiftC x .lsl amount c).2 = true ↔ x.toNat * 2 ^ amount / 2 ^ 32 % 2 = 1)

/-- LSR (43_and_r_operation.md R157): the floor of the unsigned quotient, the carry out bit `n - 1`; by 32 the result
is 0 and the carry out the top bit. -/
def Obligations.LsrDividesUnsigned : Prop :=
  ∀ (x : Word) (amount : Nat) (c : Bool), 1 ≤ amount → amount ≤ 32 →
    (shiftC x .lsr amount c).1.toNat = x.toNat / 2 ^ amount ∧
    (shiftC x .lsr amount c).2 = x.getLsbD (amount - 1) ∧
    (amount = 32 → (shiftC x .lsr amount c).1 = 0#32 ∧ (shiftC x .lsr amount c).2 = x.getLsbD 31)

/-- ASR (43_and_r_operation.md R158): the floor of the signed quotient, the carry out bit `n - 1`; by 32 the result is
32 copies of the top bit and the carry out the top bit. -/
def Obligations.AsrDividesSigned : Prop :=
  ∀ (x : Word) (amount : Nat) (c : Bool), 1 ≤ amount → amount ≤ 32 →
    (shiftC x .asr amount c).1.toInt = x.toInt / (2 : Int) ^ amount ∧
    (shiftC x .asr amount c).2 = x.getLsbD (amount - 1) ∧
    (amount = 32 → (shiftC x .asr amount c).1 = (if x.getLsbD 31 then 0xFFFFFFFF#32 else 0#32) ∧
      (shiftC x .asr amount c).2 = x.getLsbD 31)

/-- ROR (43_and_r_operation.md R159): bit `i` of the result is bit `(i + n) mod 32`, the carry out is the result's top
bit, which is bit `n - 1` of the value. -/
def Obligations.RorRotates : Prop :=
  ∀ (x : Word) (amount : Nat) (c : Bool), 1 ≤ amount → amount ≤ 31 →
    (shiftC x .ror amount c).1 = (x >>> amount) ||| (x <<< (32 - amount)) ∧
    (∀ i, i < 32 → (shiftC x .ror amount c).1.getLsbD i = x.getLsbD ((i + amount) % 32)) ∧
    (shiftC x .ror amount c).2 = (shiftC x .ror amount c).1.getLsbD 31 ∧
    (shiftC x .ror amount c).2 = x.getLsbD (amount - 1)

/-- RRX (43_and_r_operation.md R160): the old carry on top of the upper 31 bits, the carry out bit 0. -/
def Obligations.RrxRotatesThroughCarry : Prop :=
  ∀ (x : Word) (c : Bool),
    (shiftC x .rrx 1 c).1.toNat = (if c then 2 ^ 31 else 0) + x.toNat / 2 ∧
    (shiftC x .rrx 1 c).2 = x.getLsbD 0

/-! ### Registers, the pc and the IT state -/

/-- Reading a register (10_state.md R24): below 15 the value last written, 15 the address plus 8 modulo 2^32 in A32. -/
def Obligations.RegisterReads : Prop :=
  (∀ (s : State) (d : Reg) (v : Word), d ≠ 15#4 → (s.writeReg d v).readReg d = v) ∧
  (∀ (s : State) (d r : Reg) (v : Word), r ≠ d → r ≠ 15#4 → (s.writeReg d v).readReg r = s.readReg r) ∧
  (∀ (s : State), s.pstate.t = false → (s.readReg 15#4).toNat = (s.pc.toNat + 8) % 2 ^ 32) ∧
  (∀ (s : State), s.pstate.t = true → (s.readReg 15#4).toNat = (s.pc.toNat + 4) % 2 ^ 32)

/-- Writing a register (10_state.md R25): it replaces register `d` and changes nothing else; with register 15 nothing is
written this way. -/
def Obligations.RegisterWriteFrame : Prop :=
  ∀ (s : State) (d : Reg) (v : Word),
    (d ≠ 15#4 → (s.writeReg d v).readReg d = v) ∧
    sameRegistersBut d s (s.writeReg d v) ∧ (s.writeReg d v).pc = s.pc ∧ (s.writeReg d v).pstate = s.pstate ∧
    sameOutside s (s.writeReg d v) ∧ s.writeReg 15#4 v = s

/-- The banks (10_state.md R23; which registers they hold is the model's choice, log 9): R0 to R7 are shared by all
modes, R8 to R12 by all but FIQ, R13 by User and System alone, R14 by User, System and Hyp. -/
def Obligations.BankedRegisters : Prop :=
  (∀ (a b : Mode) (r : Reg), r.toNat < 8 → physIndex a r = physIndex b r) ∧
  (∀ (a b : Mode) (r : Reg), 8 ≤ r.toNat → r.toNat < 13 →
    (physIndex a r = physIndex b r ↔ (a = .fiq ↔ b = .fiq))) ∧
  (∀ (a b : Mode), physIndex a 13#4 = physIndex b 13#4 ↔ a = b ∨ (a = .user ∧ b = .system) ∨ (a = .system ∧ b = .user)) ∧
  (∀ (a b : Mode), physIndex a 14#4 = physIndex b 14#4 ↔ a = b ∨ (a ∈ [Mode.user, .system, .hyp] ∧ b ∈ [Mode.user, .system, .hyp])) ∧
  (∀ (a b : Mode) (q r : Reg), q ≠ 15#4 → r ≠ 15#4 → physIndex a q = physIndex b r → q = r)

/-- `ITAdvance` and `InITBlock` (10_state.md R33): IT[7:5] kept and IT[4:0] shifted left, or the block ended. -/
def Obligations.ItAdvanceShiftsTheMask : Prop :=
  ∀ (it : BitVec 8),
    (it.toNat % 8 = 0 → itAdvance it = 0#8) ∧
    (it.toNat % 8 ≠ 0 → (itAdvance it).toNat = it.toNat / 32 * 32 + it.toNat * 2 % 32) ∧
    (∀ s : State, s.pstate.it = it → (s.inITBlock = true ↔ it.toNat % 16 ≠ 0))

/-- `ITAdvance` keeps an IT state well-formed, and a well-formed one names a condition in every block
(43_and_r_operation.md R172; the form is the model's reading of P3, log 15). -/
def Obligations.ItAdvanceKeepsWellFormedIT : Prop :=
  ∀ (it : BitVec 8), itWellFormed it = true →
    itWellFormed (itAdvance it) = true ∧ (it.toNat % 16 ≠ 0 → it.toNat / 16 ≠ 15)

/-! ### The nine encodings -/

/-- `AND_r_A1_RRX` (40_and_r_a1.md R101): its words; with the condition passing and `Rd` below 15, the result, nothing else but the
pc; with `Rd` 15, a write of the PC with the result; with the condition failing, only the pc. -/
def Obligations.AndA1RrxDoesWhatItsRuleSays : Prop :=
  ∀ (cond : Cond) (d n m : Reg),
    (∀ w : Word, decodeA1 w = some (.andRA1Rrx cond d n m) ↔
      w &&& 0x0FF00FF0#32 = 0x00000060#32 ∧ fieldsA1 w cond d n m) ∧
    ∀ s : State,
      (condHolds cond s.pstate = true → d ≠ 15#4 →
        ∃ t, exec (.andRA1Rrx cond d n m) s = .next t ∧ holdsAnd s t d n m .rrx 1 ∧ sameRegistersBut d s t ∧
          t.pc = s.pc + 4#32 ∧ t.pstate = s.pstate ∧ sameOutside s t) ∧
      (condHolds cond s.pstate = true → d = 15#4 →
        ∃ r : Word, exec (.andRA1Rrx cond d n m) s = .next (aluWritePC s r) ∧
          ∀ i, i < 32 → r.getLsbD i =
            ((s.readReg n).getLsbD i && shiftedBit .rrx 1 (s.readReg m) s.pstate.c i)) ∧
      (condHolds cond s.pstate = false → exec (.andRA1Rrx cond d n m) s = .next { s with pc := s.pc + 4#32 })

/-- `AND_r_A1` (40_and_r_a1.md R102): its words, and its effect for every shift type and amount they hold. -/
def Obligations.AndA1DoesWhatItsRuleSays : Prop :=
  ∀ (cond : Cond) (d n m : Reg) (shift : SRType) (amount : Nat),
    (∀ w : Word, decodeA1 w = some (.andRA1 cond d n m shift amount) ↔
      w &&& 0x0FF00010#32 = 0x00000000#32 ∧ w &&& 0x00000FE0#32 ≠ 0x00000060#32 ∧ fieldsA1 w cond d n m ∧
        decodeImmShift (w.extractLsb' 5 2) (w.extractLsb' 7 5) = (shift, amount)) ∧
    ∀ s : State, shift.validAmount amount = true →
      (condHolds cond s.pstate = true → d ≠ 15#4 →
        ∃ t, exec (.andRA1 cond d n m shift amount) s = .next t ∧ holdsAnd s t d n m shift amount ∧
          sameRegistersBut d s t ∧ t.pc = s.pc + 4#32 ∧ t.pstate = s.pstate ∧ sameOutside s t) ∧
      (condHolds cond s.pstate = true → d = 15#4 →
        ∃ r : Word, exec (.andRA1 cond d n m shift amount) s = .next (aluWritePC s r) ∧
          ∀ i, i < 32 → r.getLsbD i =
            ((s.readReg n).getLsbD i && shiftedBit shift amount (s.readReg m) s.pstate.c i)) ∧
      (condHolds cond s.pstate = false →
        exec (.andRA1 cond d n m shift amount) s = .next { s with pc := s.pc + 4#32 })

/-- `ANDS_r_A1_RRX` (40_and_r_a1.md R103): as AND with RRX, and N and Z of the result, C the shifted-out bit, V kept;
with `Rd` 15, `ALUExceptionReturn` of the result. -/
def Obligations.AndsA1RrxDoesWhatItsRuleSays : Prop :=
  ∀ (cond : Cond) (d n m : Reg),
    (∀ w : Word, decodeA1 w = some (.andsRA1Rrx cond d n m) ↔
      w &&& 0x0FF00FF0#32 = 0x00100060#32 ∧ fieldsA1 w cond d n m) ∧
    ∀ s : State,
      (condHolds cond s.pstate = true → d ≠ 15#4 →
        ∃ t, exec (.andsRA1Rrx cond d n m) s = .next t ∧ holdsAnd s t d n m .rrx 1 ∧ sameRegistersBut d s t ∧
          t.pc = s.pc + 4#32 ∧ t.pstate = flagsOf s.pstate (t.readReg d) ((s.readReg m).getLsbD 0) ∧
          sameOutside s t) ∧
      (condHolds cond s.pstate = true → d = 15#4 →
        ∃ r : Word, exec (.andsRA1Rrx cond d n m) s = aluExceptionReturn s r ∧
          ∀ i, i < 32 → r.getLsbD i =
            ((s.readReg n).getLsbD i && shiftedBit .rrx 1 (s.readReg m) s.pstate.c i)) ∧
      (condHolds cond s.pstate = false → exec (.andsRA1Rrx cond d n m) s = .next { s with pc := s.pc + 4#32 })

/-- `ANDS_r_A1` (40_and_r_a1.md R104): its words, and its effect for every shift type and amount they hold. -/
def Obligations.AndsA1DoesWhatItsRuleSays : Prop :=
  ∀ (cond : Cond) (d n m : Reg) (shift : SRType) (amount : Nat),
    (∀ w : Word, decodeA1 w = some (.andsRA1 cond d n m shift amount) ↔
      w &&& 0x0FF00010#32 = 0x00100000#32 ∧ w &&& 0x00000FE0#32 ≠ 0x00000060#32 ∧ fieldsA1 w cond d n m ∧
        decodeImmShift (w.extractLsb' 5 2) (w.extractLsb' 7 5) = (shift, amount)) ∧
    ∀ s : State, shift.validAmount amount = true →
      (condHolds cond s.pstate = true → d ≠ 15#4 →
        ∃ t, exec (.andsRA1 cond d n m shift amount) s = .next t ∧ holdsAnd s t d n m shift amount ∧
          sameRegistersBut d s t ∧ t.pc = s.pc + 4#32 ∧
          t.pstate = flagsOf s.pstate (t.readReg d) (shiftedCarry shift amount (s.readReg m) s.pstate.c) ∧
          sameOutside s t) ∧
      (condHolds cond s.pstate = true → d = 15#4 →
        ∃ r : Word, exec (.andsRA1 cond d n m shift amount) s = aluExceptionReturn s r ∧
          ∀ i, i < 32 → r.getLsbD i =
            ((s.readReg n).getLsbD i && shiftedBit shift amount (s.readReg m) s.pstate.c i)) ∧
      (condHolds cond s.pstate = false →
        exec (.andsRA1 cond d n m shift amount) s = .next { s with pc := s.pc + 4#32 })

/-- `AND_r_T1` outside an IT block (41_and_r_t1.md R121): always the AND, N and Z of the result, C and V kept, the IT
state left zero. -/
def Obligations.AndT1OutsideItBlockSetsFlags : Prop :=
  ∀ (dn m : LowReg),
    (∀ h : Half, decodeT1 h = some (.andRT1 dn m) ↔
      h &&& 0xFFC0#16 = 0x4000#16 ∧ h.extractLsb' 3 3 = m ∧ h.extractLsb' 0 3 = dn) ∧
    ∀ s : State, s.inITBlock = false →
      ∃ t, exec (.andRT1 dn m) s = .next t ∧
        t.readReg (lowReg dn) = s.readReg (lowReg dn) &&& s.readReg (lowReg m) ∧
        sameRegistersBut (lowReg dn) s t ∧ t.pc = s.pc + 2#32 ∧
        t.pstate = { flagsOf s.pstate (t.readReg (lowReg dn)) s.pstate.c with it := 0#8 } ∧ sameOutside s t

/-- `AND_r_T1` inside an IT block (41_and_r_t1.md R122): the AND when the condition IT[7:4] passes, no flag either way,
the pc and the IT state advanced either way. -/
def Obligations.AndT1InsideItBlockKeepsFlags : Prop :=
  ∀ (dn m : LowReg),
    (∀ h : Half, decodeT1 h = some (.andRT1 dn m) ↔
      h &&& 0xFFC0#16 = 0x4000#16 ∧ h.extractLsb' 3 3 = m ∧ h.extractLsb' 0 3 = dn) ∧
    ∀ (cond : Cond) (s : State), s.inITBlock = true →
      Cond.ofBits (s.pstate.it.extractLsb' 4 4) = some cond →
      (condHolds cond s.pstate = true →
        ∃ t, exec (.andRT1 dn m) s = .next t ∧
          t.readReg (lowReg dn) = s.readReg (lowReg dn) &&& s.readReg (lowReg m) ∧
          sameRegistersBut (lowReg dn) s t ∧ t.pc = s.pc + 2#32 ∧ t.pstate = itAdvanced s.pstate ∧ sameOutside s t) ∧
      (condHolds cond s.pstate = false →
        exec (.andRT1 dn m) s = .next { s with pc := s.pc + 2#32, pstate := itAdvanced s.pstate })

/-- `AND_r_T2_RRX` (42_and_r_t2.md R131) after the checks of R130, `cond` being the condition of the IT state. -/
def Obligations.AndT2RrxDoesWhatItsRuleSays : Prop :=
  ∀ (d n m : Reg),
    (∀ (w : Word) (sbz : Bool), decodeT2 w = some (.andRT2Rrx d n m sbz) ↔
      w &&& 0xFFF070F0#32 = 0xEA000030#32 ∧ fieldsT2 w d n m sbz) ∧
    ∀ (cond : Cond) (s : State), d ≠ 15#4 → n ≠ 15#4 → m ≠ 15#4 → s.itCond = some cond →
      (condHolds cond s.pstate = true →
        ∃ t, exec (.andRT2Rrx d n m false) s = .next t ∧ holdsAnd s t d n m .rrx 1 ∧ sameRegistersBut d s t ∧
          t.pc = s.pc + 4#32 ∧ t.pstate = itAdvanced s.pstate ∧ sameOutside s t) ∧
      (condHolds cond s.pstate = false →
        exec (.andRT2Rrx d n m false) s = .next { s with pc := s.pc + 4#32, pstate := itAdvanced s.pstate })

/-- `AND_r_T2` (42_and_r_t2.md R132) after the checks of R130. -/
def Obligations.AndT2DoesWhatItsRuleSays : Prop :=
  ∀ (d n m : Reg) (shift : SRType) (amount : Nat),
    (∀ (w : Word) (sbz : Bool), decodeT2 w = some (.andRT2 d n m sbz shift amount) ↔
      w &&& 0xFFF00000#32 = 0xEA000000#32 ∧ w &&& 0x000070F0#32 ≠ 0x00000030#32 ∧ fieldsT2 w d n m sbz ∧
        decodeImmShift (w.extractLsb' 4 2) (w.extractLsb' 12 3 ++ w.extractLsb' 6 2) = (shift, amount)) ∧
    ∀ (cond : Cond) (s : State), shift.validAmount amount = true →
      d ≠ 15#4 → n ≠ 15#4 → m ≠ 15#4 → s.itCond = some cond →
      (condHolds cond s.pstate = true →
        ∃ t, exec (.andRT2 d n m false shift amount) s = .next t ∧ holdsAnd s t d n m shift amount ∧
          sameRegistersBut d s t ∧ t.pc = s.pc + 4#32 ∧ t.pstate = itAdvanced s.pstate ∧ sameOutside s t) ∧
      (condHolds cond s.pstate = false →
        exec (.andRT2 d n m false shift amount) s = .next { s with pc := s.pc + 4#32, pstate := itAdvanced s.pstate })

/-- `ANDS_r_T2_RRX` (42_and_r_t2.md R133) after the checks of R130: flags inside an IT block too. -/
def Obligations.AndsT2RrxDoesWhatItsRuleSays : Prop :=
  ∀ (d n m : Reg),
    (∀ (w : Word) (sbz : Bool), decodeT2 w = some (.andsRT2Rrx d n m sbz) ↔
      w &&& 0xFFF070F0#32 = 0xEA100030#32 ∧ w &&& 0x00000F00#32 ≠ 0x00000F00#32 ∧ fieldsT2 w d n m sbz) ∧
    ∀ (cond : Cond) (s : State), d ≠ 15#4 → n ≠ 15#4 → m ≠ 15#4 → s.itCond = some cond →
      (condHolds cond s.pstate = true →
        ∃ t, exec (.andsRT2Rrx d n m false) s = .next t ∧ holdsAnd s t d n m .rrx 1 ∧ sameRegistersBut d s t ∧
          t.pc = s.pc + 4#32 ∧
          t.pstate = itAdvanced (flagsOf s.pstate (t.readReg d) ((s.readReg m).getLsbD 0)) ∧ sameOutside s t) ∧
      (condHolds cond s.pstate = false →
        exec (.andsRT2Rrx d n m false) s = .next { s with pc := s.pc + 4#32, pstate := itAdvanced s.pstate })

/-- `ANDS_r_T2` (42_and_r_t2.md R134) after the checks of R130. -/
def Obligations.AndsT2DoesWhatItsRuleSays : Prop :=
  ∀ (d n m : Reg) (shift : SRType) (amount : Nat),
    (∀ (w : Word) (sbz : Bool), decodeT2 w = some (.andsRT2 d n m sbz shift amount) ↔
      w &&& 0xFFF00000#32 = 0xEA100000#32 ∧ w &&& 0x000070F0#32 ≠ 0x00000030#32 ∧ w &&& 0x00000F00#32 ≠ 0x00000F00#32 ∧ fieldsT2 w d n m sbz ∧
        decodeImmShift (w.extractLsb' 4 2) (w.extractLsb' 12 3 ++ w.extractLsb' 6 2) = (shift, amount)) ∧
    ∀ (cond : Cond) (s : State), shift.validAmount amount = true →
      d ≠ 15#4 → n ≠ 15#4 → m ≠ 15#4 → s.itCond = some cond →
      (condHolds cond s.pstate = true →
        ∃ t, exec (.andsRT2 d n m false shift amount) s = .next t ∧ holdsAnd s t d n m shift amount ∧
          sameRegistersBut d s t ∧ t.pc = s.pc + 4#32 ∧
          t.pstate = itAdvanced
            (flagsOf s.pstate (t.readReg d) (shiftedCarry shift amount (s.readReg m) s.pstate.c)) ∧
          sameOutside s t) ∧
      (condHolds cond s.pstate = false →
        exec (.andsRT2 d n m false shift amount) s =
          .next { s with pc := s.pc + 4#32, pstate := itAdvanced s.pstate })

/-- The PC as a source in class A1 (40_and_r_a1.md R105): the operand is the instruction's address plus 8, as `Rn` and,
shifted like any other, as `Rm`, in each of the four encodings. -/
def Obligations.PcReadsAsAddressPlusEight : Prop :=
  ∀ (cond : Cond) (d n m : Reg) (shift : SRType) (amount : Nat) (s : State), s.pstate.t = false →
    condHolds cond s.pstate = true → d ≠ 15#4 → shift.validAmount amount = true →
    let operand : Reg → Word := fun r => if r = 15#4 then s.pc + 8#32 else s.readReg r
    (∀ i : Instr, i = .andRA1 cond d n m shift amount ∨ i = .andsRA1 cond d n m shift amount →
      ∃ t, exec i s = .next t ∧ ∀ k, k < 32 → (t.readReg d).getLsbD k =
        ((operand n).getLsbD k && shiftedBit shift amount (operand m) s.pstate.c k)) ∧
    (∀ i : Instr, i = .andRA1Rrx cond d n m ∨ i = .andsRA1Rrx cond d n m →
      ∃ t, exec i s = .next t ∧ ∀ k, k < 32 → (t.readReg d).getLsbD k =
        ((operand n).getLsbD k && shiftedBit .rrx 1 (operand m) s.pstate.c k))

/-- AND of a register with itself, unshifted, changes nothing but the pc (40_and_r_a1.md R102). -/
def Obligations.AndWithItselfChangesOnlyThePc : Prop :=
  ∀ (cond : Cond) (r : Reg) (s : State), r ≠ 15#4 →
    exec (.andRA1 cond r r r .lsl 0) s = .next { s with pc := s.pc + 4#32 }

/-! ### Writing the PC -/

/-- AND to the PC from A32 (40_and_r_a1.md R106, 43_and_r_operation.md R165), in both its encodings, where the target says
one thing: bit 0 set enters T32 at the target with bit 0 cleared, bits 1:0 clear stays in A32 at the target. -/
def Obligations.AndToThePcIsAnInterworkingBranch : Prop :=
  ∀ (i : Instr) (cond : Cond) (n m : Reg) (shift : SRType) (amount : Nat) (s : State),
    (i = .andRA1 cond 15#4 n m shift amount ∧ shift.validAmount amount = true) ∨
      (i = .andRA1Rrx cond 15#4 n m ∧ shift = .rrx ∧ amount = 1) →
    s.pstate.t = false → condHolds cond s.pstate = true →
    ∃ (r : Word) (t : State),
      (∀ k, k < 32 → r.getLsbD k =
        ((s.readReg n).getLsbD k && shiftedBit shift amount (s.readReg m) s.pstate.c k)) ∧
      exec i s = .next t ∧ sameRegisters s t ∧ sameOutside s t ∧
      (r.toNat % 2 = 1 → t.pc.toNat = r.toNat - 1 ∧ t.pstate = { s.pstate with t := true }) ∧
      (r.toNat % 4 = 0 → t.pc = r ∧ t.pstate = s.pstate)

/-- A branch to an A32 address with bit 1 set (43_and_r_operation.md R165; which behaviour is the implementation's, log
8): to the word below, or to the address itself, where the next step ends in a fetch fault at it. -/
def Obligations.UnalignedA32TargetHasTwoOutcomes : Prop :=
  ∀ (s : State) (r : Word), s.pstate.t = false → r.toNat % 4 = 2 →
    sameRegisters s (aluWritePC s r) ∧ sameOutside s (aluWritePC s r) ∧ (aluWritePC s r).pstate = s.pstate ∧
    ((Config.a32UnalignedBranch = .forceAlign ∧ (aluWritePC s r).pc.toNat = r.toNat - 2) ∨
      (Config.a32UnalignedBranch = .faultAtTarget ∧ (aluWritePC s r).pc = r ∧
        step (aluWritePC s r) = .fault (.fetch r)))

/-! ### Exception return -/

/-- ANDS to the PC in Hyp mode is UNDEFINED when the condition passes, and a normal step when it fails
(60_exceptions.md R191). -/
def Obligations.AndsToThePcInHypIsUndefined : Prop :=
  ∀ (cond : Cond) (n m : Reg) (shift : SRType) (amount : Nat) (s : State), s.pstate.mode = .hyp →
    (condHolds cond s.pstate = true →
      exec (.andsRA1 cond 15#4 n m shift amount) s = .fault .undefined ∧
      exec (.andsRA1Rrx cond 15#4 n m) s = .fault .undefined) ∧
    (condHolds cond s.pstate = false →
      exec (.andsRA1 cond 15#4 n m shift amount) s = .next { s with pc := s.pc + 4#32 } ∧
      exec (.andsRA1Rrx cond 15#4 n m) s = .next { s with pc := s.pc + 4#32 })

/-- ANDS to the PC in User or System mode is UNDEFINED or only advances the pc, as the implementation chooses
(43_and_r_operation.md R167; log 7). -/
def Obligations.AndsToThePcInUserAndSystem : Prop :=
  ∀ (cond : Cond) (n m : Reg) (shift : SRType) (amount : Nat) (s : State),
    s.pstate.mode = .user ∨ s.pstate.mode = .system → condHolds cond s.pstate = true →
    (Config.aluExcReturnUsrSys = .undefined ∧
      exec (.andsRA1 cond 15#4 n m shift amount) s = .fault .undefined ∧
      exec (.andsRA1Rrx cond 15#4 n m) s = .fault .undefined) ∨
    (Config.aluExcReturnUsrSys = .nop ∧
      exec (.andsRA1 cond 15#4 n m shift amount) s = .next { s with pc := s.pc + 4#32 } ∧
      exec (.andsRA1Rrx cond 15#4 n m) s = .next { s with pc := s.pc + 4#32 })

/-- ANDS to the PC in the modes that have an SPSR and are not Hyp completes (43_and_r_operation.md R168, log 6), in both
its encodings. First, which SPSR is `SPSR_<current_mode>` (10_state.md R35). Then: no general-purpose register, SPSR or byte
of memory changes, the exclusive monitor is cleared, PSTATE is restored from the SPSR, the IT state in A32 too,
and the pc is the result aligned for the restored instruction set. -/
def Obligations.ExceptionReturnRestoresPstate : Prop :=
  (∀ s : State,
    (s.pstate.mode = .fiq → s.currentSpsr = some s.spsr.fiq) ∧
    (s.pstate.mode = .irq → s.currentSpsr = some s.spsr.irq) ∧
    (s.pstate.mode = .supervisor → s.currentSpsr = some s.spsr.svc) ∧
    (s.pstate.mode = .monitor → s.currentSpsr = some s.spsr.mon) ∧
    (s.pstate.mode = .abort → s.currentSpsr = some s.spsr.abt) ∧
    (s.pstate.mode = .undefined → s.currentSpsr = some s.spsr.und) ∧
    (s.pstate.mode = .user ∨ s.pstate.mode = .system → s.currentSpsr = none)) ∧
  ∀ (i : Instr) (cond : Cond) (n m : Reg) (shift : SRType) (amount : Nat) (s : State) (spsr : Word),
    (i = .andsRA1 cond 15#4 n m shift amount ∧ shift.validAmount amount = true) ∨
      (i = .andsRA1Rrx cond 15#4 n m ∧ shift = .rrx ∧ amount = 1) →
    condHolds cond s.pstate = true → s.pstate.mode ≠ .hyp → s.currentSpsr = some spsr →
    ∃ (r : Word) (t : State),
      (∀ k, k < 32 → r.getLsbD k =
        ((s.readReg n).getLsbD k && shiftedBit shift amount (s.readReg m) s.pstate.c k)) ∧
      exec i s = .next t ∧
      sameRegisters s t ∧ t.spsr = s.spsr ∧ t.exclusive = false ∧
      (∀ a, Memory.read t.imem a = Memory.read s.imem a) ∧
      t.pc.toNat = (if spsr.getLsbD 5 then r.toNat / 2 * 2 else r.toNat / 4 * 4) ∧
      t.pstate.n = spsr.getLsbD 31 ∧ t.pstate.z = spsr.getLsbD 30 ∧ t.pstate.c = spsr.getLsbD 29 ∧
      t.pstate.v = spsr.getLsbD 28 ∧ t.pstate.q = spsr.getLsbD 27 ∧
      t.pstate.it.toNat = spsr.toNat / 2 ^ 10 % 2 ^ 6 * 4 + spsr.toNat / 2 ^ 25 % 4 ∧
      t.pstate.ge.toNat = spsr.toNat / 2 ^ 16 % 16 ∧ t.pstate.e = spsr.getLsbD 9 ∧
      t.pstate.aMask = spsr.getLsbD 8 ∧ t.pstate.iMask = spsr.getLsbD 7 ∧ t.pstate.fMask = spsr.getLsbD 6 ∧
      t.pstate.t = spsr.getLsbD 5 ∧
      (Config.havePAN = true → t.pstate.pan = spsr.getLsbD 22) ∧
      (Config.haveDIT = true → t.pstate.dit = spsr.getLsbD 21) ∧
      (Config.haveSSBS = true → t.pstate.ssbs = spsr.getLsbD 23) ∧
      ((∃ target, returnTarget s.pstate spsr = some target ∧ target.number = spsr.extractLsb' 0 5 ∧
          t.pstate.mode = target ∧ t.pstate.el = returnLevel s.pstate target ∧ t.pstate.il = spsr.getLsbD 20) ∨
        (returnTarget s.pstate spsr = none ∧ t.pstate.mode = s.pstate.mode ∧ t.pstate.el = s.pstate.el ∧
          t.pstate.il = true))

/-- Illegal return events (43_and_r_operation.md R169; the reading is the model's, log 11), from every level. AArch64 state
and a number that names no mode are illegal. A mode that the SPSR names is legal exactly where it is implemented, is at no
higher level than the mode the return leaves, and from EL2 or EL3 the configuration allows it. -/
def Obligations.IllegalReturnEvents : Prop :=
  ∀ (p : PState) (spsr : Word),
    (spsr.getLsbD 4 = false → returnTarget p spsr = none) ∧
    (Mode.ofNumber (spsr.extractLsb' 0 5) = none → returnTarget p spsr = none) ∧
    (∀ target : Mode, returnTarget p spsr = some target → target.number = spsr.extractLsb' 0 5) ∧
    (p.mode.hasLevel p.el = true → ∀ target : Mode, target.number = spsr.extractLsb' 0 5 →
      (returnTarget p spsr = some target ↔
        (target = .user ∨ (target = .hyp ∧ Config.haveEL2 = true ∧ 2 ≤ p.el.toNat) ∨
          (target = .monitor ∧ p.el.toNat = 3) ∨
          (target ∈ [Mode.fiq, .irq, .supervisor, .abort, .undefined, .system] ∧ 1 ≤ p.el.toNat)) ∧
        (2 ≤ p.el.toNat → Config.securityAllows p.mode.number p.el target.number = true)))

/-- A legal exception return makes the CPSR the SPSR in the flags, Q, GE, E, the masks and the mode
(10_state.md R36, 43_and_r_operation.md R168; log 6): the bits of mask 0xF80F03DF. -/
def Obligations.LegalReturnMakesCpsrOfSpsr : Prop :=
  ∀ (s : State) (a spsr : Word) (target : Mode), returnTarget s.pstate spsr = some target →
    (exceptionReturn s a spsr).pstate.cpsr &&& 0xF80F03DF#32 = spsr &&& 0xF80F03DF#32

/-- The instruction after an illegal return ends in an Illegal Execution state fault, once its bytes are fetched
(43_and_r_operation.md R169; the order and the fault are the model's, log 12). -/
def Obligations.IllegalStateFaultsAfterFetch : Prop :=
  ∀ (s : State) (bytes : List Byte), s.pstate.il = true → fetch s = .next bytes → step s = .fault .illegalState

/-! ### Stops of class T2 and of the IT state -/

/-- T2 with bit 15 set is refused, whatever the condition and the operands, unless it is TST (30_encoding.md R81,
42_and_r_t2.md R130). -/
def Obligations.T2Bit15IsRefused : Prop :=
  ∀ (d n m : Reg) (shift : SRType) (amount : Nat) (s : State),
    exec (.andRT2Rrx d n m true) s = .refused (.unpredictable .t2SbzBit15) ∧
    exec (.andRT2 d n m true shift amount) s = .refused (.unpredictable .t2SbzBit15) ∧
    (d ≠ 15#4 →
      exec (.andsRT2Rrx d n m true) s = .refused (.unpredictable .t2SbzBit15) ∧
      exec (.andsRT2 d n m true shift amount) s = .refused (.unpredictable .t2SbzBit15))

/-- The UNPREDICTABLE operands of T2 (60_exceptions.md R192): the PC as `Rn` or `Rm`, or as `Rd` of AND, is refused
whatever the condition; every other register, 13 included, completes in
any position, in every well-formed IT state. -/
def Obligations.T2PcOperandsAreRefused : Prop :=
  (∀ (d n m : Reg) (shift : SRType) (amount : Nat) (s : State), d = 15#4 ∨ n = 15#4 ∨ m = 15#4 →
    exec (.andRT2Rrx d n m false) s = .refused (.unpredictable .t2PcOperand) ∧
    exec (.andRT2 d n m false shift amount) s = .refused (.unpredictable .t2PcOperand) ∧
    (d ≠ 15#4 →
      exec (.andsRT2Rrx d n m false) s = .refused (.unpredictable .t2PcOperand) ∧
      exec (.andsRT2 d n m false shift amount) s = .refused (.unpredictable .t2PcOperand))) ∧
  (∀ (d n m : Reg) (shift : SRType) (amount : Nat) (s : State), itWellFormed s.pstate.it = true →
    d ≠ 15#4 → n ≠ 15#4 → m ≠ 15#4 →
    isNext (exec (.andRT2Rrx d n m false) s) = true ∧ isNext (exec (.andRT2 d n m false shift amount) s) = true ∧
    isNext (exec (.andsRT2Rrx d n m false) s) = true ∧ isNext (exec (.andsRT2 d n m false shift amount) s) = true)

/-- An IT block with the condition `1111` and an IT state in A32 are refused (U16 of 93_implementation_defined.md; log 15):
the first by AND_r_T1 and by the four T2 instructions with operands that pass the checks of 42_and_r_t2.md R130, which a
well-formed IT state never makes them do; the second by a step, once its bytes are fetched. -/
def Obligations.Condition1111AndItInA32AreRefused : Prop :=
  (∀ (dn m : LowReg) (s : State),
    (s.inITBlock = true → s.pstate.it.extractLsb' 4 4 = 15#4 → exec (.andRT1 dn m) s = .refused .illFormedIT) ∧
    (itWellFormed s.pstate.it = true → isNext (exec (.andRT1 dn m) s) = true)) ∧
  (∀ (d n m : Reg) (shift : SRType) (amount : Nat) (s : State), d ≠ 15#4 → n ≠ 15#4 → m ≠ 15#4 →
    s.inITBlock = true → s.pstate.it.extractLsb' 4 4 = 15#4 →
    exec (.andRT2Rrx d n m false) s = .refused .illFormedIT ∧
    exec (.andRT2 d n m false shift amount) s = .refused .illFormedIT ∧
    exec (.andsRT2Rrx d n m false) s = .refused .illFormedIT ∧
    exec (.andsRT2 d n m false shift amount) s = .refused .illFormedIT) ∧
  (∀ (s : State) (bytes : List Byte), s.pstate.t = false → s.pstate.it ≠ 0#8 → s.pstate.il = false →
    fetch s = .next bytes → step s = .refused .illFormedIT)

/-! ### Fetch -/

/-- A misaligned pc: the step ends in a fetch fault at it, before anything is fetched (20_memory.md R56). -/
def Obligations.MisalignedFetchFaults : Prop :=
  ∀ (s : State),
    (s.pstate.t = false → s.pc.toNat % 4 ≠ 0 → step s = .fault (.fetch s.pc)) ∧
    (s.pstate.t = true → s.pc.toNat % 2 ≠ 0 → step s = .fault (.fetch s.pc))

/-- A byte of the instruction outside IMEM: a fetch fault at the first such byte (20_memory.md R57), for an A32 word, a
first and a second T32 halfword. -/
def Obligations.UnmappedFetchFaults : Prop :=
  ∀ (s : State) (k : Nat), s.pcAligned = true → (∀ j, j < k → Memory.read s.imem (s.pc.toNat + j) ≠ none) →
    Memory.read s.imem (s.pc.toNat + k) = none →
    (s.pstate.t = false → k < 4 → step s = .fault (.fetch (s.pc + BitVec.ofNat 32 k))) ∧
    (s.pstate.t = true → k < 2 → step s = .fault (.fetch (s.pc + BitVec.ofNat 32 k))) ∧
    (∀ b0 b1 : Byte, s.pstate.t = true → Memory.read s.imem s.pc.toNat = some b0 →
      Memory.read s.imem (s.pc.toNat + 1) = some b1 → isWide (half b0 b1) = true → s.pc.toNat + 4 < 2 ^ 32 →
      k < 4 → step s = .fault (.fetch (s.pc + BitVec.ofNat 32 k)))

/-- The pc never wraps (10_state.md R28): a fetched instruction whose next pc would reach 2^32 is refused, a 32-bit T32
one before its second halfword; the value read as register 15 wraps without a refusal. -/
def Obligations.PcWrapIsRefused : Prop :=
  ∀ (s : State) (b0 b1 b2 b3 : Byte), s.pcAligned = true →
    Memory.read s.imem s.pc.toNat = some b0 → Memory.read s.imem (s.pc.toNat + 1) = some b1 →
    (s.pstate.t = false → Memory.read s.imem (s.pc.toNat + 2) = some b2 →
      Memory.read s.imem (s.pc.toNat + 3) = some b3 → 2 ^ 32 ≤ s.pc.toNat + 4 → step s = .refused .pcWrap) ∧
    (s.pstate.t = true → isWide (half b0 b1) = false → 2 ^ 32 ≤ s.pc.toNat + 2 → step s = .refused .pcWrap) ∧
    (s.pstate.t = true → isWide (half b0 b1) = true → 2 ^ 32 ≤ s.pc.toNat + 4 → step s = .refused .pcWrap) ∧
    (s.pstate.t = false → (s.readReg 15#4).toNat = (s.pc.toNat + 8) % 2 ^ 32)

/-- An A32 fetch (20_memory.md R52): bits 8k+7 to 8k of the word are the byte at the pc plus k. -/
def Obligations.A32FetchIsLittleEndian : Prop :=
  ∀ (b0 b1 b2 b3 : Byte),
    (wordA32 b0 b1 b2 b3).extractLsb' 0 8 = b0 ∧ (wordA32 b0 b1 b2 b3).extractLsb' 8 8 = b1 ∧
    (wordA32 b0 b1 b2 b3).extractLsb' 16 8 = b2 ∧ (wordA32 b0 b1 b2 b3).extractLsb' 24 8 = b3 ∧
    (∀ s : State, s.pstate.t = false → s.pcAligned = true → s.pc.toNat + 4 < 2 ^ 32 →
      Memory.read s.imem s.pc.toNat = some b0 → Memory.read s.imem (s.pc.toNat + 1) = some b1 →
      Memory.read s.imem (s.pc.toNat + 2) = some b2 → Memory.read s.imem (s.pc.toNat + 3) = some b3 →
      fetch s = .next (bytesA32 (wordA32 b0 b1 b2 b3)))

/-- A T32 fetch (20_memory.md R53): the first halfword's top five bits decide the length, the first halfword of a 32-bit
instruction is in bits 31:16, each halfword little-endian. -/
def Obligations.T32FetchIsByHalfwords : Prop :=
  ∀ (b0 b1 b2 b3 : Byte),
    (isWide (half b0 b1) = true ↔ b1.toNat / 8 = 29 ∨ b1.toNat / 8 = 30 ∨ b1.toNat / 8 = 31) ∧
    (half b0 b1).toNat = b1.toNat * 256 + b0.toNat ∧
    (wordT32 b0 b1 b2 b3).toNat = (half b0 b1).toNat * 65536 + (half b2 b3).toNat ∧
    (∀ s : State, s.pstate.t = true → s.pcAligned = true → Memory.read s.imem s.pc.toNat = some b0 →
      Memory.read s.imem (s.pc.toNat + 1) = some b1 →
      (isWide (half b0 b1) = false → s.pc.toNat + 2 < 2 ^ 32 → fetch s = .next [b0, b1]) ∧
      (isWide (half b0 b1) = true → s.pc.toNat + 4 < 2 ^ 32 → Memory.read s.imem (s.pc.toNat + 2) = some b2 →
        Memory.read s.imem (s.pc.toNat + 3) = some b3 → fetch s = .next [b0, b1, b2, b3]))

/-- The decoder is total on what is fetched (30_encoding.md R83): one of the nine encodings, which the step runs, or a
word that is none of them, which ends the step in that refusal and in no exception. Outside Illegal Execution state and, in
A32, with no IT state (premise P2). -/
def Obligations.OtherWordsAreRefused : Prop :=
  ∀ (s : State) (bytes : List Byte), fetch s = .next bytes → s.pstate.il = false →
    (s.pstate.t = false → s.pstate.it = 0#8) →
    (∃ i, decode s.pstate.t bytes = .instr i [] ∧ step s = exec i s) ∨
    (∃ w, decode s.pstate.t bytes = .notInScope w ∧ step s = .refused (.notInScope w))

/-! ### Whole-machine rules -/

/-- Every step keeps the invariant: memory's canonical form, the pc's alignment, the IT state's form, the mode's level,
Hyp mode only where it exists, and the SPSRs' form (log 8, 15; 10_state.md R27, R33, R34, R172, 20_memory.md R50). -/
def Obligations.StepKeepsTheInvariant : Prop :=
  ∀ (s t : State), s.Inv → step s = .next t → t.Inv

/-- The state after reset, whose values are the model's choices (log 1, 2, 3), meets the invariant. -/
def Obligations.ResetMeetsTheInvariant : Prop :=
  State.reset.Inv

/-- No step changes the program text or an SPSR (10_state.md R35, R41, 20_memory.md R51, R62). -/
def Obligations.ProgramAndSpsrsNeverChange : Prop :=
  ∀ (s t : State), step s = .next t → t.imem = s.imem ∧ t.spsr = s.spsr

/-- The fields of PSTATE other than N, Z, C, IT and T, the mode, the Exception level and V among them, and the exclusive
monitor change only in an exception return: the step ran ANDS to the PC with the condition passing in a mode that has an
SPSR and is not Hyp (10_state.md R29, R37, 60_exceptions.md R202). -/
def Obligations.OnlyExceptionReturnChangesTheRestOfPstate : Prop :=
  ∀ (s t : State), step s = .next t →
    (t.exclusive = s.exclusive ∧ t.pstate =
      { s.pstate with n := t.pstate.n, z := t.pstate.z, c := t.pstate.c, it := t.pstate.it, t := t.pstate.t }) ∨
    (∃ cond n m, (fetchDecode s = .next (.andsRA1Rrx cond 15#4 n m) ∨
        ∃ shift amount, fetchDecode s = .next (.andsRA1 cond 15#4 n m shift amount)) ∧
      condHolds cond s.pstate = true ∧ s.pstate.mode ≠ .hyp ∧ s.pstate.mode ≠ .user ∧ s.pstate.mode ≠ .system)

/-- The instruction set changes only when an A1 instruction writes the PC with its condition passing (10_state.md R32). -/
def Obligations.OnlyWritingThePcChangesTheInstructionSet : Prop :=
  ∀ (s t : State), step s = .next t → t.pstate.t ≠ s.pstate.t →
    ∃ cond n m, condHolds cond s.pstate = true ∧
      (fetchDecode s = .next (.andRA1Rrx cond 15#4 n m) ∨ fetchDecode s = .next (.andsRA1Rrx cond 15#4 n m) ∨
        ∃ shift amount, fetchDecode s = .next (.andRA1 cond 15#4 n m shift amount) ∨
          fetchDecode s = .next (.andsRA1 cond 15#4 n m shift amount))

/-- A step that does not write the PC moves it past the instruction (10_state.md R26, 43_and_r_operation.md R170). -/
def Obligations.EveryOtherStepAdvancesThePc : Prop :=
  ∀ (s t : State) (i : Instr), fetchDecode s = .next i → step s = .next t →
    t.pc = s.pc + BitVec.ofNat 32 i.length ∨
    ∃ cond n m, condHolds cond s.pstate = true ∧
      (i = .andRA1Rrx cond 15#4 n m ∨ i = .andsRA1Rrx cond 15#4 n m ∨
        ∃ shift amount, i = .andRA1 cond 15#4 n m shift amount ∨ i = .andsRA1 cond 15#4 n m shift amount)

/-- Every form but ANDS to the PC ends the same way, with the same results, in every mode and at every Exception level
(60_exceptions.md R201), said of the registers all modes share, R0 to R7 (log 9), and of the PC. -/
def Obligations.ResultsDoNotDependOnTheMode : Prop :=
  ∀ (i : Instr) (s : State) (mode : Mode) (el : BitVec 2),
    (∀ r, r ∈ registersOf i → r.toNat < 8 ∨ r = 15#4) → isAndsToPc i = false →
    (∀ t, exec i s = .next t → exec i (s.inMode mode el) = .next (t.inMode mode el)) ∧
    (∀ f, exec i s = .fault f → exec i (s.inMode mode el) = .fault f) ∧
    (∀ r, exec i s = .refused r → exec i (s.inMode mode el) = .refused r)

/-- The machine right after reset (the model's choices, log 1, 2 and 3; the spec gives no reset value, R40): Supervisor
mode, A32, interrupts masked, pc and every register zero, no program. -/
def Obligations.ResetState : Prop :=
  State.reset.pc = 0#32 ∧ State.reset.pstate.mode = .supervisor ∧ State.reset.pstate.el = 1#2 ∧
  State.reset.pstate.t = false ∧ State.reset.pstate.it = 0#8 ∧
  (State.reset.pstate.aMask && State.reset.pstate.iMask && State.reset.pstate.fMask) = true ∧
  State.reset.pstate.cpsr = 0x000001D3#32 ∧
  (∀ k, State.reset.physReg k = 0#32) ∧ State.reset.exclusive = false ∧
  (∀ a, Memory.read State.reset.imem a = none) ∧ step State.reset = .fault (.fetch 0#32)
end

