-- ==== Sys2Proof/Laws/Operands.lean ====
section
/-! SUPPORT. The shifter, said once: every bit of the shifted operand and the carry, for every shift an instruction can
hold. -/

namespace Sys2Proof.Machine

theorem shiftC_zero (x : Word) (shift : SRType) (c : Bool) : shiftC x shift 0 c = (x, c) := rfl

theorem shiftC_rrx (x : Word) (c : Bool) : shiftC x .rrx 1 c = rrxC x c := rfl

theorem rrxC_bit (x : Word) (c : Bool) (i : Nat) (h : i < 32) :
    (rrxC x c).1.getLsbD i = shiftedBit .rrx 1 x c i := by
  simp only [rrxC, shiftedBit, BitVec.getLsbD_append, BitVec.getLsbD_extractLsb']
  by_cases hi : i = 31
  · subst hi; simp
  · have : i < 31 := by omega
    simp [hi, this, Nat.add_comm]

/-- Every bit of the shifted operand of a "shift or rotate by value" encoding. -/
theorem shiftC_bit (x : Word) (shift : SRType) (amount : Nat) (c : Bool) (hv : shift.validAmount amount = true)
    (i : Nat) (h : i < 32) : (shiftC x shift amount c).1.getLsbD i = shiftedBit shift amount x c i := by
  cases shift with
  | lsl =>
    by_cases h0 : amount = 0
    · subst h0; simp [shiftC, shiftedBit]
    · by_cases hle : amount ≤ i
      · simp [shiftC, h0, lslC, shiftedBit, h, hle, Nat.not_lt.mpr hle, BitVec.getLsbD_eq_getElem (show i - amount < 32 by omega)]
      · simp [shiftC, h0, lslC, shiftedBit, h, hle, Nat.lt_of_not_le hle]
  | lsr =>
    have h0 : amount ≠ 0 := by simp [SRType.validAmount] at hv; omega
    simp [shiftC, h0, lsrC, shiftedBit, Nat.add_comm]
  | asr =>
    have h0 : amount ≠ 0 := by simp [SRType.validAmount] at hv; omega
    simp only [shiftC, h0, if_false, asrC, shiftedBit, BitVec.getLsbD_sshiftRight]
    by_cases hlt : amount + i < 32
    · simp [h, hlt, Nat.add_comm i amount]
    · have : ¬ i + amount < 32 := by omega
      simp [h, hlt, this, BitVec.msb_eq_getLsbD_last]
  | ror =>
    have h0 : amount ≠ 0 := by simp [SRType.validAmount] at hv; omega
    have h1 : amount < 32 := by simp [SRType.validAmount] at hv; omega
    simp only [shiftC, h0, if_false, rorC, shiftedBit, BitVec.getLsbD_or, BitVec.getLsbD_ushiftRight,
      BitVec.getLsbD_shiftLeft]
    by_cases hlt : i + amount < 32
    · have e : (i + amount) % 32 = amount + i := by omega
      have : i < 32 - amount := by omega
      simp [e, this]
    · have e : (i + amount) % 32 = i - (32 - amount) := by omega
      have h2 : ¬ i < 32 - amount := by omega
      have h3 : x.getLsbD (amount + i) = false := BitVec.getLsbD_of_ge _ _ (by omega)
      simp [e, h2, h3, h]
  | rrx => simp [SRType.validAmount] at hv

/-- The carry of a "shift or rotate by value" encoding. -/
theorem shiftC_carry (x : Word) (shift : SRType) (amount : Nat) (c : Bool) (hv : shift.validAmount amount = true) :
    (shiftC x shift amount c).2 = shiftedCarry shift amount x c := by
  cases shift with
  | lsl =>
    by_cases h0 : amount = 0
    · subst h0; rfl
    · simp [shiftC, h0, lslC, shiftedCarry]
  | lsr =>
    have h0 : amount ≠ 0 := by simp [SRType.validAmount] at hv; omega
    simp [shiftC, h0, lsrC, shiftedCarry]
  | asr =>
    have h0 : amount ≠ 0 := by simp [SRType.validAmount] at hv; omega
    simp [shiftC, h0, asrC, shiftedCarry]
  | ror =>
    have hb := shiftC_bit x .ror amount c hv 31 (by omega)
    have h0 : 1 ≤ amount ∧ amount ≤ 31 := by simpa [SRType.validAmount] using hv
    have hne : amount ≠ 0 := by omega
    have e : (31 + amount) % 32 = amount - 1 := by omega
    have hc : (shiftC x .ror amount c).2 = (shiftC x .ror amount c).1.getLsbD 31 := by
      simp [shiftC, hne, rorC]
    rw [hc, hb]
    simp [shiftedBit, shiftedCarry, e]
  | rrx => simp [SRType.validAmount] at hv

end Sys2Proof.Machine
end

