-- ==== Sys2Proof/Laws/State.lean ====
section
/-! SUPPORT. One lemma per field per update of State, each true by rfl, so that no later proof unfolds a record update;
and reading a register after a write. -/

namespace Sys2Proof.Machine

/-! ### setPc -/

@[simp] theorem setPc_regs (s : State) (pc : Word) : (s.setPc pc).regs = s.regs := rfl
@[simp] theorem setPc_pc (s : State) (pc : Word) : (s.setPc pc).pc = pc := rfl
@[simp] theorem setPc_pstate (s : State) (pc : Word) : (s.setPc pc).pstate = s.pstate := rfl
@[simp] theorem setPc_spsr (s : State) (pc : Word) : (s.setPc pc).spsr = s.spsr := rfl
@[simp] theorem setPc_exclusive (s : State) (pc : Word) : (s.setPc pc).exclusive = s.exclusive := rfl
@[simp] theorem setPc_imem (s : State) (pc : Word) : (s.setPc pc).imem = s.imem := rfl
@[simp] theorem setPc_draws (s : State) (pc : Word) : (s.setPc pc).draws = s.draws := rfl
@[simp] theorem setPc_physReg (s : State) (pc : Word) (k : Nat) : (s.setPc pc).physReg k = s.physReg k := rfl

/-! ### advanceA32 -/

@[simp] theorem advanceA32_regs (s : State) : s.advanceA32.regs = s.regs := rfl
@[simp] theorem advanceA32_pc (s : State) : s.advanceA32.pc = s.pc + 4#32 := rfl
@[simp] theorem advanceA32_pstate (s : State) : s.advanceA32.pstate = s.pstate := rfl
@[simp] theorem advanceA32_spsr (s : State) : s.advanceA32.spsr = s.spsr := rfl
@[simp] theorem advanceA32_exclusive (s : State) : s.advanceA32.exclusive = s.exclusive := rfl
@[simp] theorem advanceA32_imem (s : State) : s.advanceA32.imem = s.imem := rfl
@[simp] theorem advanceA32_draws (s : State) : s.advanceA32.draws = s.draws := rfl
@[simp] theorem advanceA32_physReg (s : State) (k : Nat) : s.advanceA32.physReg k = s.physReg k := rfl

/-! ### advanceT32 -/

@[simp] theorem advanceT32_regs (s : State) (len : Nat) : (s.advanceT32 len).regs = s.regs := rfl
@[simp] theorem advanceT32_pc (s : State) (len : Nat) : (s.advanceT32 len).pc = s.pc + BitVec.ofNat 32 len := rfl
@[simp] theorem advanceT32_pstate (s : State) (len : Nat) :
    (s.advanceT32 len).pstate = { s.pstate with it := itAdvance s.pstate.it } := rfl
@[simp] theorem advanceT32_spsr (s : State) (len : Nat) : (s.advanceT32 len).spsr = s.spsr := rfl
@[simp] theorem advanceT32_exclusive (s : State) (len : Nat) : (s.advanceT32 len).exclusive = s.exclusive := rfl
@[simp] theorem advanceT32_imem (s : State) (len : Nat) : (s.advanceT32 len).imem = s.imem := rfl
@[simp] theorem advanceT32_draws (s : State) (len : Nat) : (s.advanceT32 len).draws = s.draws := rfl
@[simp] theorem advanceT32_physReg (s : State) (len k : Nat) : (s.advanceT32 len).physReg k = s.physReg k := rfl

/-! ### branchTo -/

@[simp] theorem branchTo_regs (s : State) (t : Bool) (pc : Word) : (s.branchTo t pc).regs = s.regs := rfl
@[simp] theorem branchTo_pc (s : State) (t : Bool) (pc : Word) : (s.branchTo t pc).pc = pc := rfl
@[simp] theorem branchTo_pstate (s : State) (t : Bool) (pc : Word) :
    (s.branchTo t pc).pstate = { s.pstate with t := t } := rfl
@[simp] theorem branchTo_spsr (s : State) (t : Bool) (pc : Word) : (s.branchTo t pc).spsr = s.spsr := rfl
@[simp] theorem branchTo_exclusive (s : State) (t : Bool) (pc : Word) :
    (s.branchTo t pc).exclusive = s.exclusive := rfl
@[simp] theorem branchTo_imem (s : State) (t : Bool) (pc : Word) : (s.branchTo t pc).imem = s.imem := rfl
@[simp] theorem branchTo_draws (s : State) (t : Bool) (pc : Word) : (s.branchTo t pc).draws = s.draws := rfl
@[simp] theorem branchTo_physReg (s : State) (t : Bool) (pc : Word) (k : Nat) :
    (s.branchTo t pc).physReg k = s.physReg k := rfl

/-! ### setNZC -/

@[simp] theorem setNZC_regs (s : State) (r : Word) (c : Bool) : (s.setNZC r c).regs = s.regs := rfl
@[simp] theorem setNZC_pc (s : State) (r : Word) (c : Bool) : (s.setNZC r c).pc = s.pc := rfl
@[simp] theorem setNZC_pstate (s : State) (r : Word) (c : Bool) :
    (s.setNZC r c).pstate = { s.pstate with n := r.getLsbD 31, z := isZeroBit r, c := c } := rfl
@[simp] theorem setNZC_spsr (s : State) (r : Word) (c : Bool) : (s.setNZC r c).spsr = s.spsr := rfl
@[simp] theorem setNZC_exclusive (s : State) (r : Word) (c : Bool) : (s.setNZC r c).exclusive = s.exclusive := rfl
@[simp] theorem setNZC_imem (s : State) (r : Word) (c : Bool) : (s.setNZC r c).imem = s.imem := rfl
@[simp] theorem setNZC_draws (s : State) (r : Word) (c : Bool) : (s.setNZC r c).draws = s.draws := rfl
@[simp] theorem setNZC_physReg (s : State) (r : Word) (c : Bool) (k : Nat) :
    (s.setNZC r c).physReg k = s.physReg k := rfl

/-! ### setPhysReg -/

@[simp] theorem setPhysReg_pc (s : State) (k : Nat) (v : Word) : (s.setPhysReg k v).pc = s.pc := rfl
@[simp] theorem setPhysReg_pstate (s : State) (k : Nat) (v : Word) : (s.setPhysReg k v).pstate = s.pstate := rfl
@[simp] theorem setPhysReg_spsr (s : State) (k : Nat) (v : Word) : (s.setPhysReg k v).spsr = s.spsr := rfl
@[simp] theorem setPhysReg_exclusive (s : State) (k : Nat) (v : Word) :
    (s.setPhysReg k v).exclusive = s.exclusive := rfl
@[simp] theorem setPhysReg_imem (s : State) (k : Nat) (v : Word) : (s.setPhysReg k v).imem = s.imem := rfl
@[simp] theorem setPhysReg_draws (s : State) (k : Nat) (v : Word) : (s.setPhysReg k v).draws = s.draws := rfl

/-- A physical register read after a write of one. -/
theorem physReg_setPhysReg (s : State) (j k : Nat) (v : Word) (hk : k < 33) :
    (s.setPhysReg k v).physReg j = if j = k then v else s.physReg j := by
  unfold State.physReg State.setPhysReg
  by_cases hj : j < 33
  · simp only [hj, dif_pos, Vector.getElem_setIfInBounds]
    by_cases h : k = j
    · simp [h]
    · simp [h, Ne.symm h]
  · have : j ≠ k := by omega
    simp [hj, this]

/-! ### exceptionReturn -/

@[simp] theorem exceptionReturn_regs (s : State) (a spsr : Word) : (exceptionReturn s a spsr).regs = s.regs := rfl
@[simp] theorem exceptionReturn_pc (s : State) (a spsr : Word) :
    (exceptionReturn s a spsr).pc = if spsrT spsr then alignHalf a else alignWord a := rfl
@[simp] theorem exceptionReturn_pstate (s : State) (a spsr : Word) :
    (exceptionReturn s a spsr).pstate = restorePState s.draws (returnMode s.pstate spsr) spsr := rfl
@[simp] theorem exceptionReturn_spsr (s : State) (a spsr : Word) : (exceptionReturn s a spsr).spsr = s.spsr := rfl
@[simp] theorem exceptionReturn_exclusive (s : State) (a spsr : Word) :
    (exceptionReturn s a spsr).exclusive = false := rfl
@[simp] theorem exceptionReturn_imem (s : State) (a spsr : Word) : (exceptionReturn s a spsr).imem = s.imem := rfl
@[simp] theorem exceptionReturn_draws (s : State) (a spsr : Word) : (exceptionReturn s a spsr).draws = s.draws + 1 := rfl
@[simp] theorem exceptionReturn_physReg (s : State) (a spsr : Word) (k : Nat) :
    (exceptionReturn s a spsr).physReg k = s.physReg k := rfl

/-! ### writeReg and writeResult -/

@[simp] theorem writeReg_pc (s : State) (r : Reg) (v : Word) : (s.writeReg r v).pc = s.pc := by
  unfold State.writeReg; split <;> rfl
@[simp] theorem writeReg_pstate (s : State) (r : Reg) (v : Word) : (s.writeReg r v).pstate = s.pstate := by
  unfold State.writeReg; split <;> rfl
@[simp] theorem writeReg_spsr (s : State) (r : Reg) (v : Word) : (s.writeReg r v).spsr = s.spsr := by
  unfold State.writeReg; split <;> rfl
@[simp] theorem writeReg_exclusive (s : State) (r : Reg) (v : Word) :
    (s.writeReg r v).exclusive = s.exclusive := by
  unfold State.writeReg; split <;> rfl
@[simp] theorem writeReg_imem (s : State) (r : Reg) (v : Word) : (s.writeReg r v).imem = s.imem := by
  unfold State.writeReg; split <;> rfl
@[simp] theorem writeReg_draws (s : State) (r : Reg) (v : Word) : (s.writeReg r v).draws = s.draws := by
  unfold State.writeReg; split <;> rfl

/-- Writing register 15 this way writes nothing. -/
@[simp] theorem writeReg_pc_register (s : State) (v : Word) : s.writeReg 15#4 v = s := by
  simp [State.writeReg]

@[simp] theorem writeResult_pc (s : State) (f : Bool) (d : Reg) (r : Word) (c : Bool) :
    (writeResult s f d r c).pc = s.pc := by
  unfold writeResult; split <;> simp
@[simp] theorem writeResult_pstate (s : State) (f : Bool) (d : Reg) (r : Word) (c : Bool) :
    (writeResult s f d r c).pstate =
      if f then { s.pstate with n := r.getLsbD 31, z := isZeroBit r, c := c } else s.pstate := by
  unfold writeResult; split <;> simp
@[simp] theorem writeResult_spsr (s : State) (f : Bool) (d : Reg) (r : Word) (c : Bool) :
    (writeResult s f d r c).spsr = s.spsr := by
  unfold writeResult; split <;> simp
@[simp] theorem writeResult_exclusive (s : State) (f : Bool) (d : Reg) (r : Word) (c : Bool) :
    (writeResult s f d r c).exclusive = s.exclusive := by
  unfold writeResult; split <;> simp
@[simp] theorem writeResult_imem (s : State) (f : Bool) (d : Reg) (r : Word) (c : Bool) :
    (writeResult s f d r c).imem = s.imem := by
  unfold writeResult; split <;> simp
@[simp] theorem writeResult_draws (s : State) (f : Bool) (d : Reg) (r : Word) (c : Bool) :
    (writeResult s f d r c).draws = s.draws := by
  unfold writeResult; split <;> simp
@[simp] theorem writeResult_physReg (s : State) (f : Bool) (d : Reg) (r : Word) (c : Bool) (k : Nat) :
    (writeResult s f d r c).physReg k = (s.writeReg d r).physReg k := by
  unfold writeResult; split <;> simp

end Sys2Proof.Machine
end

