-- ==== Sys2Proof/Laws/Registers.lean ====
section
/-! SUPPORT. The banks: which physical register a register number names, and reads after writes through it. -/

namespace Sys2Proof.Machine

theorem physIndex_lt (m : Mode) (r : Reg) : physIndex m r < 33 := by
  revert r; cases m <;> decide

/-- Two register numbers below 15 name two physical registers, in every mode. -/
theorem physIndex_injective (m : Mode) (q r : Reg) (hq : q ≠ 15#4) (hr : r ≠ 15#4)
    (h : physIndex m q = physIndex m r) : q = r := by
  revert q r; cases m <;> decide

/-- R0 to R7 are the same physical registers in every mode. -/
theorem physIndex_low (m : Mode) (r : Reg) (h : r.toNat < 8) : physIndex m r = r.toNat := by
  simp [physIndex, h]

theorem readReg_of_ne (s : State) (r : Reg) (h : r ≠ 15#4) :
    s.readReg r = s.physReg (physIndex s.pstate.mode r) := by
  simp [State.readReg, h]

/-- Everything a register write does to the physical registers. -/
theorem physReg_writeReg (s : State) (d : Reg) (v : Word) (k : Nat) (h : d ≠ 15#4) :
    (s.writeReg d v).physReg k = if k = physIndex s.pstate.mode d then v else s.physReg k := by
  simp [State.writeReg, h, physReg_setPhysReg _ _ _ _ (physIndex_lt _ _)]

/-- A register read depends on the physical registers, the mode and, for register 15, the pc and the instruction set. -/
theorem readReg_congr (s t : State) (r : Reg) (hm : t.pstate.mode = s.pstate.mode) (hr : r ≠ 15#4)
    (hk : t.physReg (physIndex s.pstate.mode r) = s.physReg (physIndex s.pstate.mode r)) :
    t.readReg r = s.readReg r := by
  rw [readReg_of_ne _ _ hr, readReg_of_ne _ _ hr, hm, hk]

end Sys2Proof.Machine
end

