-- ==== Sys2Proof/Laws/And.lean ====
section
/-! SUPPORT. The shared execute pseudocode, said once: everything the A1 operation and the T32 operation can answer. -/

namespace Sys2Proof.Machine

/-- Everything class A1 can do (43_and_r_operation.md R150, R170). -/
theorem executeA1_eq (cond : Cond) (f : Bool) (d n m : Reg) (shift : SRType) (amount : Nat) (s : State) :
    executeA1 cond f d n m shift amount s =
      if condHolds cond s.pstate = false then .next s.advanceA32
      else if d ≠ 15#4 then
        .next (writeResult s f d (andResult s n m shift amount).1 (andResult s n m shift amount).2).advanceA32
      else if f then aluExceptionReturn s (andResult s n m shift amount).1
      else .next (aluWritePC s (andResult s n m shift amount).1) := by
  unfold executeA1
  cases condHolds cond s.pstate <;> by_cases h : d = 15#4 <;> simp [h]

/-- A T32 operation that answers a next state advances the pc and the IT state, and at most writes its result. -/
theorem executeT32_next (len : Nat) (f : Bool) (d n m : Reg) (shift : SRType) (amount : Nat) (s t : State)
    (h : executeT32 len f d n m shift amount s = .next t) :
    ∃ cond, s.itCond = some cond ∧
      t = if condHolds cond s.pstate then
          (writeResult s f d (andResult s n m shift amount).1 (andResult s n m shift amount).2).advanceT32 len
        else s.advanceT32 len := by
  unfold executeT32 at h
  cases hc : s.itCond with
  | none => simp [hc] at h
  | some cond =>
    refine ⟨cond, rfl, ?_⟩
    simp only [hc] at h
    cases hp : condHolds cond s.pstate <;> simp_all

/-- A T2 instruction that answers a next state passed the checks of 42_and_r_t2.md R130. -/
theorem executeT2_next (word : Word) (f : Bool) (d n m : Reg) (sbz : Bool) (shift : SRType) (amount : Nat)
    (s t : State) (h : executeT2 word f d n m sbz shift amount s = .next t) :
    sbz = false ∧ d ≠ 15#4 ∧ n ≠ 15#4 ∧ m ≠ 15#4 ∧ executeT32 4 f d n m shift amount s = .next t := by
  unfold executeT2 at h
  split at h
  · cases h
  · split at h
    · cases h
    · split at h
      · cases h
      · rename_i _ h2 h3
        simp only [not_or] at h3
        exact ⟨by simpa using h2, h3.1, h3.2.1, h3.2.2, h⟩

/-- What ANDS to the PC can answer as a next state: an exception return, or only the advance of the pc. -/
theorem aluExceptionReturn_next (s t : State) (a : Word) (h : aluExceptionReturn s a = .next t) :
    (∃ spsr, s.currentSpsr = some spsr ∧ s.pstate.mode ≠ .hyp ∧ t = exceptionReturn s a spsr) ∨
      (s.currentSpsr = none ∧ t = s.advanceA32) := by
  unfold aluExceptionReturn at h
  split at h
  · cases h
  · rename_i hm
    split at h
    · rename_i spsr hs
      exact .inl ⟨spsr, hs, hm, (Host.Outcome.next.inj h).symm⟩
    · rename_i hs
      split at h
      · cases h
      · exact .inr ⟨hs, (Host.Outcome.next.inj h).symm⟩

/-- What an interworking branch leaves: the pc and the instruction set, nothing else. -/
theorem bxWritePC_eq (s : State) (a : Word) : ∃ t pc, bxWritePC s a = s.branchTo t pc := by
  unfold bxWritePC
  split
  · exact ⟨_, _, rfl⟩
  · split
    · split <;> exact ⟨_, _, rfl⟩
    · exact ⟨_, _, rfl⟩

/-- What writing the PC leaves: the pc and the instruction set, nothing else. -/
theorem aluWritePC_eq (s : State) (a : Word) : ∃ t pc, aluWritePC s a = s.branchTo t pc := by
  unfold aluWritePC
  split
  · rename_i ht
    exact ⟨true, alignHalf a, by simp [State.setPc, State.branchTo, ← ht]⟩
  · exact bxWritePC_eq s a

/-! ### The result, bit by bit -/

/-- Every bit of the result of a "shift or rotate by value" encoding. -/
theorem andResult_bit (s : State) (n m : Reg) (shift : SRType) (amount : Nat)
    (hv : shift.validAmount amount = true) (i : Nat) (hi : i < 32) :
    (andResult s n m shift amount).1.getLsbD i =
      ((s.readReg n).getLsbD i && shiftedBit shift amount (s.readReg m) s.pstate.c i) := by
  simp only [andResult, BitVec.getLsbD_and, shiftC_bit _ _ _ _ hv _ hi]

/-- Every bit of the result of an RRX encoding. -/
theorem andResult_rrx_bit (s : State) (n m : Reg) (i : Nat) (hi : i < 32) :
    (andResult s n m .rrx 1).1.getLsbD i =
      ((s.readReg n).getLsbD i && shiftedBit .rrx 1 (s.readReg m) s.pstate.c i) := by
  simp only [andResult, BitVec.getLsbD_and, shiftC_rrx, rrxC_bit _ _ _ hi]

/-! ### What a written result leaves -/

/-- A state whose registers are those after a register write reads the value back. -/
theorem readReg_of_written (s t : State) (d : Reg) (v : Word) (hd : d ≠ 15#4)
    (hm : t.pstate.mode = s.pstate.mode) (hk : ∀ k, t.physReg k = (s.writeReg d v).physReg k) : t.readReg d = v := by
  rw [readReg_of_ne _ _ hd, hk, physReg_writeReg _ _ _ _ hd, hm, if_pos rfl]

/-- A state whose registers are those after a register write has every other register as it was. -/
theorem sameRegistersBut_of_written (s t : State) (d : Reg) (v : Word) (hd : d ≠ 15#4)
    (hk : ∀ k, t.physReg k = (s.writeReg d v).physReg k) : sameRegistersBut d s t := by
  intro k _ hne
  rw [hk, physReg_writeReg _ _ _ _ hd, if_neg hne]

/-- A written result and the advance of A32: the register, the frame, the pc and the flags. -/
theorem written_advanceA32 (s : State) (f : Bool) (d : Reg) (v : Word) (c : Bool) (hd : d ≠ 15#4) :
    ((writeResult s f d v c).advanceA32).readReg d = v ∧
      sameRegistersBut d s (writeResult s f d v c).advanceA32 ∧
      ((writeResult s f d v c).advanceA32).pstate = (if f then flagsOf s.pstate v c else s.pstate) ∧
      sameOutside s (writeResult s f d v c).advanceA32 := by
  refine ⟨readReg_of_written s _ d v hd (by cases f <;> simp) (by simp), ?_, ?_, by simp [sameOutside]⟩
  · exact sameRegistersBut_of_written s _ d v hd (by simp)
  · cases f <;> simp [flagsOf, isZeroBit, beq_eq_decide]

/-- A written result and the advance of T32: the register, the frame, the pc, the flags and the IT state. -/
theorem written_advanceT32 (len : Nat) (s : State) (f : Bool) (d : Reg) (v : Word) (c : Bool) (hd : d ≠ 15#4) :
    ((writeResult s f d v c).advanceT32 len).readReg d = v ∧
      sameRegistersBut d s ((writeResult s f d v c).advanceT32 len) ∧
      ((writeResult s f d v c).advanceT32 len).pstate =
        itAdvanced (if f then flagsOf s.pstate v c else s.pstate) ∧
      sameOutside s ((writeResult s f d v c).advanceT32 len) := by
  refine ⟨readReg_of_written s _ d v hd (by cases f <;> simp) (by simp), ?_, ?_, by simp [sameOutside]⟩
  · exact sameRegistersBut_of_written s _ d v hd (by simp)
  · cases f <;> simp [flagsOf, isZeroBit, beq_eq_decide, itAdvanced]

/-! ### The three ways through R150 -/

theorem executeA1_pass (cond : Cond) (f : Bool) (d n m : Reg) (shift : SRType) (amount : Nat) (s : State)
    (hc : condHolds cond s.pstate = true) (hd : d ≠ 15#4) :
    executeA1 cond f d n m shift amount s =
      .next (writeResult s f d (andResult s n m shift amount).1 (andResult s n m shift amount).2).advanceA32 := by
  rw [executeA1_eq, if_neg (by simp [hc]), if_pos hd]

theorem executeA1_toPc (cond : Cond) (f : Bool) (n m : Reg) (shift : SRType) (amount : Nat) (s : State)
    (hc : condHolds cond s.pstate = true) :
    executeA1 cond f 15#4 n m shift amount s =
      if f then aluExceptionReturn s (andResult s n m shift amount).1
      else .next (aluWritePC s (andResult s n m shift amount).1) := by
  rw [executeA1_eq, if_neg (by simp [hc]), if_neg (by simp)]

theorem executeA1_fail (cond : Cond) (f : Bool) (d n m : Reg) (shift : SRType) (amount : Nat) (s : State)
    (hc : condHolds cond s.pstate = false) : executeA1 cond f d n m shift amount s = .next s.advanceA32 := by
  rw [executeA1_eq, if_pos hc]

theorem executeT32_pass (len : Nat) (f : Bool) (d n m : Reg) (shift : SRType) (amount : Nat) (s : State)
    (cond : Cond) (hi : s.itCond = some cond) (hc : condHolds cond s.pstate = true) :
    executeT32 len f d n m shift amount s =
      .next ((writeResult s f d (andResult s n m shift amount).1
        (andResult s n m shift amount).2).advanceT32 len) := by
  simp [executeT32, hi, hc]

theorem executeT32_fail (len : Nat) (f : Bool) (d n m : Reg) (shift : SRType) (amount : Nat) (s : State)
    (cond : Cond) (hi : s.itCond = some cond) (hc : condHolds cond s.pstate = false) :
    executeT32 len f d n m shift amount s = .next (s.advanceT32 len) := by
  simp [executeT32, hi, hc]

/-- A T2 instruction that passes the checks of 42_and_r_t2.md R130 is the shared T32 operation. -/
theorem executeT2_checked (word : Word) (f : Bool) (d n m : Reg) (shift : SRType) (amount : Nat) (s : State)
    (hd : d ≠ 15#4) (hn : n ≠ 15#4) (hm : m ≠ 15#4) :
    executeT2 word f d n m false shift amount s = executeT32 4 f d n m shift amount s := by
  simp [executeT2, hd, hn, hm]

/-- A well-formed IT state names a condition. -/
theorem itCond_of_wellFormed (s : State) (h : itWellFormed s.pstate.it = true) : ∃ cond, s.itCond = some cond := by
  have key : ∀ it : BitVec 8, itWellFormed it = true →
      (if (it.extractLsb' 0 4 != 0#4) = true then Cond.ofBits (it.extractLsb' 4 4) else some .al).isSome = true := by
    decide
  exact Option.isSome_iff_exists.mp (key s.pstate.it h)

/-! ### Addresses -/

theorem alignHalf_toNat (a : Word) : (alignHalf a).toNat = a.toNat / 2 * 2 := by
  simp only [alignHalf, BitVec.toNat_append, BitVec.extractLsb'_toNat, Nat.shiftRight_eq_div_pow, Nat.shiftLeft_eq]
  have := a.isLt
  rw [show a.toNat / 2 ^ 1 % 2 ^ 31 = a.toNat / 2 by omega, show (0#1).toNat = 0 from rfl, Nat.or_zero]

theorem alignWord_toNat (a : Word) : (alignWord a).toNat = a.toNat / 4 * 4 := by
  simp only [alignWord, BitVec.toNat_append, BitVec.extractLsb'_toNat, Nat.shiftRight_eq_div_pow, Nat.shiftLeft_eq]
  have := a.isLt
  rw [show a.toNat / 2 ^ 2 % 2 ^ 30 = a.toNat / 4 by omega, show (0#2).toNat = 0 from rfl, Nat.or_zero]

theorem getLsbD_zero_eq (a : Word) : a.getLsbD 0 = decide (a.toNat % 2 = 1) := by
  simp [BitVec.getLsbD, Nat.testBit_zero]

theorem getLsbD_one_eq (a : Word) : a.getLsbD 1 = decide (a.toNat / 2 % 2 = 1) := by
  simp [BitVec.getLsbD, Nat.testBit, Nat.shiftRight_eq_div_pow, beq_eq_decide]

/-! ### Exception return -/

/-- The IT state in an SPSR, as a number. -/
theorem spsrIT_toNat (spsr : Word) :
    (spsrIT spsr).toNat = spsr.toNat / 2 ^ 10 % 2 ^ 6 * 4 + spsr.toNat / 2 ^ 25 % 4 := by
  simp only [spsrIT, BitVec.toNat_append, BitVec.extractLsb'_toNat, Nat.shiftRight_eq_div_pow, Nat.shiftLeft_eq]
  rw [Nat.mul_comm, ← Nat.two_pow_add_eq_or_of_lt (i := 2) (Nat.mod_lt _ (by decide))]

/-- Mode numbers name their modes and no others. -/
theorem ofNumber_eq_some_iff (number : BitVec 5) (m : Mode) : Mode.ofNumber number = some m ↔ m.number = number := by
  revert number
  cases m <;> decide

/-- Everything that makes a return legal (43_and_r_operation.md R169). -/
theorem returnTarget_eq_some_iff (p : PState) (spsr : Word) (target : Mode) :
    returnTarget p spsr = some target ↔
      target.number = spsr.extractLsb' 0 5 ∧ (returnLevel p target).toNat ≤ p.el.toNat ∧
        target.implemented = true ∧ configAllows p target = true := by
  rw [← ofNumber_eq_some_iff]
  unfold returnTarget
  split
  · simp_all
  · rename_i t ht
    rw [ht, Option.some.injEq]
    constructor
    · intro h
      split_ifs at h with h1 h2 h3
      cases h
      exact ⟨rfl, by omega, by simpa using h2, by simpa using h3⟩
    · rintro ⟨rfl, h1, h2, h3⟩
      rw [if_neg (by omega), if_neg (by simp [h2]), if_neg (by simp [h3])]

/-- The mode a legal return goes to is the one its SPSR numbers. -/
theorem returnTarget_number (p : PState) (spsr : Word) (target : Mode) (h : returnTarget p spsr = some target) :
    target.number = spsr.extractLsb' 0 5 :=
  ((returnTarget_eq_some_iff p spsr target).mp h).1

end Sys2Proof.Machine
end

