-- ==== Sys2Proof/Laws/Decode.lean ====
section
/-! SUPPORT. The decoder and the encoder, said once: the fields of an encoded word, the bytes of a word, and what a word
that decodes must hold. -/

namespace Sys2Proof

/-! ### Fields of an encoded word -/

/-- The fields of an A1 word are what it was encoded from. -/
theorem encodeA1_fields (c : Cond) (f : Bool) (d n m : Reg) (shift : SRType) (a : BitVec 5) :
    (encodeA1 c f d n m shift a).extractLsb' 28 4 = c.toBits ∧
    (encodeA1 c f d n m shift a).extractLsb' 16 4 = n ∧
    (encodeA1 c f d n m shift a).extractLsb' 12 4 = d ∧
    (encodeA1 c f d n m shift a).extractLsb' 7 5 = a ∧
    (encodeA1 c f d n m shift a).extractLsb' 5 2 = shift.stype ∧
    (encodeA1 c f d n m shift a).extractLsb' 0 4 = m ∧
    (encodeA1 c f d n m shift a).getLsbD 20 = f ∧
    encodeA1 c f d n m shift a &&& 0x0FE00010#32 = 0x00000000#32 := by
  refine ⟨?_, ?_, ?_, ?_, ?_, ?_, ?_, ?_⟩
  rotate_left 6
  · simp only [encodeA1, BitVec.getLsbD_append]
    simp
  all_goals
    apply BitVec.eq_of_getLsbD_eq
    intro i hi
    simp only [encodeA1, BitVec.getLsbD_and, BitVec.getLsbD_append, BitVec.getLsbD_extractLsb']
    interval_cases i <;> simp

/-- The fields of a T2 value are what it was encoded from. -/
theorem encodeT2_fields (f : Bool) (d n m : Reg) (z : Bool) (shift : SRType) (a : BitVec 5) :
    (encodeT2 f d n m z shift a).extractLsb' 16 4 = n ∧
    (encodeT2 f d n m z shift a).extractLsb' 8 4 = d ∧
    ((encodeT2 f d n m z shift a).extractLsb' 12 3 ++ (encodeT2 f d n m z shift a).extractLsb' 6 2 : BitVec 5) = a ∧
    (encodeT2 f d n m z shift a).extractLsb' 4 2 = shift.stype ∧
    (encodeT2 f d n m z shift a).extractLsb' 0 4 = m ∧
    (encodeT2 f d n m z shift a).getLsbD 20 = f ∧
    (encodeT2 f d n m z shift a).getLsbD 15 = z ∧
    encodeT2 f d n m z shift a &&& 0xFFE00000#32 = 0xEA000000#32 := by
  refine ⟨?_, ?_, ?_, ?_, ?_, ?_, ?_, ?_⟩
  rotate_left 5
  · simp only [encodeT2, BitVec.getLsbD_append]
    simp
  · simp only [encodeT2, BitVec.getLsbD_append]
    simp
  all_goals
    apply BitVec.eq_of_getLsbD_eq
    intro i hi
    simp only [encodeT2, BitVec.getLsbD_and, BitVec.getLsbD_append, BitVec.getLsbD_extractLsb']
    interval_cases i <;> simp

/-- An encoded T2 value begins a 32-bit instruction. -/
theorem encodeT2_isWide (f : Bool) (d n m : Reg) (z : Bool) (shift : SRType) (a : BitVec 5) :
    isWide ((encodeT2 f d n m z shift a).extractLsb' 16 16) = true := by
  have h : ((encodeT2 f d n m z shift a).extractLsb' 16 16).extractLsb' 11 5 = 0b11101#5 := by
    apply BitVec.eq_of_getLsbD_eq
    intro i hi
    simp only [encodeT2, BitVec.getLsbD_append, BitVec.getLsbD_extractLsb']
    interval_cases i <;> simp
  simp [isWide, h]

/-- The two parts of a T2 amount field are zero together with the whole. -/
theorem amountParts_zero : ∀ (p : BitVec 3) (q : BitVec 2), (p ++ q : BitVec 5) = 0#5 ↔ p = 0#3 ∧ q = 0#2 := by
  decide

/-! ### Conditions and shifts -/

theorem ofBits_toBits (c : Cond) : Cond.ofBits c.toBits = some c := by
  cases c <;> rfl

theorem toBits_of_ofBits (b : BitVec 4) (c : Cond) (h : Cond.ofBits b = some c) : c.toBits = b := by
  revert b
  cases c <;> decide

/-- A shift that an instruction can hold is what its fields decode to, and they are not RRX's. -/
theorem decodeImmShift_fields (shift : SRType) (a : Nat) (h : shift.validAmount a = true) :
    decodeImmShift shift.stype (amountField a) = (shift, a) ∧ ¬ (amountField a = 0#5 ∧ shift.stype = 0b11#2) := by
  have ha : a ≤ 32 := by cases shift <;> simp [SRType.validAmount] at h <;> omega
  cases shift <;> interval_cases a <;> first | decide | (simp [SRType.validAmount] at h)

/-- Fields that are not RRX's decode to a shift that an instruction can hold, which encodes to them. -/
theorem decodeImmShift_valid (st : BitVec 2) (a : BitVec 5) (h : ¬ (a = 0#5 ∧ st = 0b11#2)) :
    (decodeImmShift st a).1.validAmount (decodeImmShift st a).2 = true ∧ (decodeImmShift st a).1.stype = st ∧
      amountField (decodeImmShift st a).2 = a := by
  revert a st
  decide

/-! ### Bytes -/

/-- The bytes of an A32 word decode as the word. -/
theorem decode_bytesA32 (w : Word) (rest : List Byte) :
    decode false (bytesA32 w ++ rest) = .ofOption (decodeA1 w) w rest := by
  have h : wordA32 ((w.extractLsb' 0 16).extractLsb' 0 8) ((w.extractLsb' 0 16).extractLsb' 8 8)
      ((w.extractLsb' 16 16).extractLsb' 0 8) ((w.extractLsb' 16 16).extractLsb' 8 8) = w := by
    apply BitVec.eq_of_getLsbD_eq
    intro i hi
    simp only [wordA32, half, BitVec.getLsbD_append, BitVec.getLsbD_extractLsb']
    interval_cases i <;> simp
  simp only [bytesA32, halfBytes, List.cons_append, List.nil_append, decode, h]

/-- The halfword of a halfword's bytes. -/
theorem half_bytes (h : Half) : half (h.extractLsb' 0 8) (h.extractLsb' 8 8) = h := by
  apply BitVec.eq_of_getLsbD_eq
  intro i hi
  simp only [half, BitVec.getLsbD_append, BitVec.getLsbD_extractLsb']
  interval_cases i <;> simp

/-- The bytes of a 32-bit T32 value decode as the value. -/
theorem decode_bytesT32 (w : Word) (rest : List Byte) (hw : isWide (w.extractLsb' 16 16) = true) :
    decode true (bytesT32 w ++ rest) = .ofOption (decodeT2 w) w rest := by
  have h : wordT32 ((w.extractLsb' 16 16).extractLsb' 0 8) ((w.extractLsb' 16 16).extractLsb' 8 8)
      ((w.extractLsb' 0 16).extractLsb' 0 8) ((w.extractLsb' 0 16).extractLsb' 8 8) = w := by
    rw [wordT32, half_bytes, half_bytes]
    apply BitVec.eq_of_getLsbD_eq
    intro i hi
    simp only [BitVec.getLsbD_append, BitVec.getLsbD_extractLsb']
    interval_cases i <;> simp
  simp only [bytesT32, halfBytes, List.cons_append, List.nil_append, decode, h, half_bytes, hw, if_true]

/-- The bytes of a T32 halfword decode as the halfword. -/
theorem decode_halfBytes (h : Half) (rest : List Byte) (hw : isWide h = false) :
    decode true (halfBytes h ++ rest) = .ofOption (decodeT1 h) (h.setWidth 32) rest := by
  simp [halfBytes, decode, half_bytes, hw]

/-! ### Words that decode -/

/-- Everything an A1 word that decodes holds, and the instruction it gives. -/
theorem decodeA1_some (w : Word) (i : Instr) (h : decodeA1 w = some i) :
    w &&& 0x0FE00010#32 = 0x00000000#32 ∧ ∃ c, Cond.ofBits (w.extractLsb' 28 4) = some c ∧
      ((w.extractLsb' 7 5 = 0#5 ∧ w.extractLsb' 5 2 = 0b11#2 ∧
          i = (if w.getLsbD 20 then Instr.andsRA1Rrx else Instr.andRA1Rrx) c (w.extractLsb' 12 4)
            (w.extractLsb' 16 4) (w.extractLsb' 0 4)) ∨
        (¬ (w.extractLsb' 7 5 = 0#5 ∧ w.extractLsb' 5 2 = 0b11#2) ∧
          i = (if w.getLsbD 20 then Instr.andsRA1 else Instr.andRA1) c (w.extractLsb' 12 4)
            (w.extractLsb' 16 4) (w.extractLsb' 0 4) (decodeImmShift (w.extractLsb' 5 2) (w.extractLsb' 7 5)).1
            (decodeImmShift (w.extractLsb' 5 2) (w.extractLsb' 7 5)).2)) := by
  unfold decodeA1 at h
  split at h
  · rename_i hm
    refine ⟨hm, ?_⟩
    split at h
    · cases h
    · rename_i c hc
      refine ⟨c, hc, ?_⟩
      dsimp only at h
      split at h
      · rename_i hz
        refine .inl ⟨hz.1, hz.2, ?_⟩
        cases h
        split <;> rfl
      · rename_i hz
        refine .inr ⟨hz, ?_⟩
        cases h
        split <;> rfl
  · cases h

/-- Everything a T2 value that decodes holds, and the instruction it gives. -/
theorem decodeT2_some (w : Word) (i : Instr) (h : decodeT2 w = some i) :
    w &&& 0xFFE00000#32 = 0xEA000000#32 ∧ ¬ (w.extractLsb' 8 4 = 15#4 ∧ w.getLsbD 20 = true) ∧
      ((w.extractLsb' 12 3 = 0#3 ∧ w.extractLsb' 6 2 = 0#2 ∧ w.extractLsb' 4 2 = 0b11#2 ∧
          i = (if w.getLsbD 20 then Instr.andsRT2Rrx else Instr.andRT2Rrx) (w.extractLsb' 8 4)
            (w.extractLsb' 16 4) (w.extractLsb' 0 4) (w.getLsbD 15)) ∨
        (¬ (w.extractLsb' 12 3 = 0#3 ∧ w.extractLsb' 6 2 = 0#2 ∧ w.extractLsb' 4 2 = 0b11#2) ∧
          i = (if w.getLsbD 20 then Instr.andsRT2 else Instr.andRT2) (w.extractLsb' 8 4) (w.extractLsb' 16 4)
            (w.extractLsb' 0 4) (w.getLsbD 15)
            (decodeImmShift (w.extractLsb' 4 2) (w.extractLsb' 12 3 ++ w.extractLsb' 6 2)).1
            (decodeImmShift (w.extractLsb' 4 2) (w.extractLsb' 12 3 ++ w.extractLsb' 6 2)).2)) := by
  unfold decodeT2 at h
  split at h
  · rename_i hm
    refine ⟨hm, ?_⟩
    dsimp only at h
    split at h
    · cases h
    · rename_i hc
      refine ⟨hc, ?_⟩
      split at h
      · rename_i hz
        refine .inl ⟨hz.1, hz.2.1, hz.2.2, ?_⟩
        cases h
        split <;> rfl
      · rename_i hz
        refine .inr ⟨hz, ?_⟩
        cases h
        split <;> rfl
  · cases h

/-- A word of the A1 format is the encoding of its own fields. -/
theorem encodeA1_of_fields (w : Word) (c : Cond) (hm : w &&& 0x0FE00010#32 = 0x00000000#32)
    (hc : c.toBits = w.extractLsb' 28 4) (shift : SRType) (hs : shift.stype = w.extractLsb' 5 2) :
    encodeA1 c (w.getLsbD 20) (w.extractLsb' 12 4) (w.extractLsb' 16 4) (w.extractLsb' 0 4) shift
      (w.extractLsb' 7 5) = w := by
  apply BitVec.eq_of_getLsbD_eq
  intro i hi
  have hb := congrArg (fun v => v.getLsbD i) hm
  simp only [BitVec.getLsbD_and] at hb
  simp only [encodeA1, BitVec.getLsbD_append, hc, hs, BitVec.getLsbD_extractLsb']
  interval_cases i <;> simp_all

/-- A value of the T2 format is the encoding of its own fields. -/
theorem encodeT2_of_fields (w : Word) (hm : w &&& 0xFFE00000#32 = 0xEA000000#32) (shift : SRType)
    (hs : shift.stype = w.extractLsb' 4 2) :
    encodeT2 (w.getLsbD 20) (w.extractLsb' 8 4) (w.extractLsb' 16 4) (w.extractLsb' 0 4) (w.getLsbD 15) shift
      (w.extractLsb' 12 3 ++ w.extractLsb' 6 2) = w := by
  apply BitVec.eq_of_getLsbD_eq
  intro i hi
  have hb := congrArg (fun v => v.getLsbD i) hm
  simp only [BitVec.getLsbD_and] at hb
  simp only [encodeT2, BitVec.getLsbD_append, hs, BitVec.getLsbD_extractLsb']
  interval_cases i <;> simp_all

/-! ### The instruction set of what decodes -/

theorem ofOption_instr (o : Option Instr) (w : Word) (rest rest' : List Byte) (i : Instr)
    (h : Decoded.ofOption o w rest = .instr i rest') : o = some i ∧ rest = rest' := by
  cases o <;> simp_all [Decoded.ofOption]

theorem decodeA1_class (w : Word) (i : Instr) (h : decodeA1 w = some i) : i.isT32 = false ∧ i.length = 4 := by
  obtain ⟨_, c, _, ⟨_, _, rfl⟩ | ⟨_, rfl⟩⟩ := decodeA1_some w i h <;> cases w.getLsbD 20 <;> exact ⟨rfl, rfl⟩

theorem decodeT1_class (h : Half) (i : Instr) (hd : decodeT1 h = some i) : i.isT32 = true ∧ i.length = 2 := by
  unfold decodeT1 at hd
  split at hd
  · cases hd
    exact ⟨rfl, rfl⟩
  · cases hd

theorem decodeT2_class (w : Word) (i : Instr) (h : decodeT2 w = some i) : i.isT32 = true ∧ i.length = 4 := by
  obtain ⟨_, _, ⟨_, _, _, rfl⟩ | ⟨_, rfl⟩⟩ := decodeT2_some w i h <;> cases w.getLsbD 20 <;> exact ⟨rfl, rfl⟩

/-- What the decoder gives is of the instruction set in force. -/
theorem decode_isT32 (t : Bool) (bytes rest : List Byte) (i : Instr) (h : decode t bytes = .instr i rest) :
    i.isT32 = t := by
  unfold decode at h
  split at h
  · exact (decodeA1_class _ _ (ofOption_instr _ _ _ _ _ h).1).1
  · split at h
    · split at h
      · exact (decodeT2_class _ _ (ofOption_instr _ _ _ _ _ h).1).1
      · cases h
    · exact (decodeT1_class _ _ (ofOption_instr _ _ _ _ _ h).1).1
  · cases h

end Sys2Proof
end

