-- ==== Sys2Proof/Laws/Memory.lean ====
section
/-! SUPPORT. Memory: a read after a write, and that every operation keeps the canonical form. -/

namespace Sys2Proof.Machine

theorem read_insert (mem : List Host.Cell) (addr a : Nat) (b : Byte) :
    Memory.read (Memory.insert mem addr b) a = if a = addr then some b else Memory.read mem a := by
  induction mem with
  | nil => simp [Memory.insert, Memory.read, eq_comm]
  | cons cell rest ih =>
    simp only [Memory.insert]
    split
    · simp [Memory.read, eq_comm]
    · split
      · rename_i _ h
        subst h
        by_cases h : a = cell.1
        · simp [Memory.read, h]
        · simp [Memory.read, h, Ne.symm h]
      · rename_i _ h
        simp only [Memory.read, ih]
        by_cases hc : cell.1 = a
        · have : a ≠ addr := by omega
          simp [hc, this]
        · simp [hc]

/-- A write sets the byte at its address and leaves every other address alone. -/
theorem read_write (mem : List Host.Cell) (addr a : Nat) (b : Byte) (h : addr < 2 ^ 32) :
    Memory.read (Memory.write mem addr b) a = if a = addr then some b else Memory.read mem a := by
  rw [Memory.write, if_pos h, read_insert]

theorem wfFrom_insert (mem : List Host.Cell) (low addr : Nat) (b : Byte) (h : addr < 2 ^ 32) (hl : low ≤ addr)
    (hm : Memory.wfFrom low mem = true) : Memory.wfFrom low (Memory.insert mem addr b) = true := by
  induction mem generalizing low with
  | nil => simp_all [Memory.insert, Memory.wfFrom]
  | cons cell rest ih =>
    simp only [Memory.wfFrom, Bool.and_eq_true, decide_eq_true_eq] at hm
    obtain ⟨⟨h1, h2⟩, h3⟩ := hm
    simp only [Memory.insert]
    split
    · rename_i hlt
      simp only [Memory.wfFrom, Bool.and_eq_true, decide_eq_true_eq]
      exact ⟨⟨hl, h⟩, ⟨hlt, h2⟩, h3⟩
    · split
      · rename_i he
        subst he
        simp only [Memory.wfFrom, Bool.and_eq_true, decide_eq_true_eq]
        exact ⟨⟨hl, h⟩, h3⟩
      · simp only [Memory.wfFrom, Bool.and_eq_true, decide_eq_true_eq]
        exact ⟨⟨h1, h2⟩, ih _ (by omega) h3⟩

/-- A write keeps the canonical form. -/
theorem wf_write (mem : List Host.Cell) (addr : Nat) (b : Byte) (hm : Memory.wf mem = true) :
    Memory.wf (Memory.write mem addr b) = true := by
  unfold Memory.write
  split
  · rename_i h
    exact wfFrom_insert mem 0 addr b h (Nat.zero_le _) hm
  · exact hm

/-- A write of bytes keeps the canonical form. -/
theorem wf_writeBytes (mem : List Host.Cell) (addr : Nat) (bytes : List Byte) (hm : Memory.wf mem = true) :
    Memory.wf (Memory.writeBytes mem addr bytes) = true := by
  induction bytes generalizing mem addr with
  | nil => exact hm
  | cons b rest ih => exact ih _ _ (wf_write _ _ _ hm)

/-- The memory after reset has the canonical form. -/
theorem wf_reset : Memory.wf State.reset.imem = true := rfl

/-- `MemRead` of a byte and the rest: what it answers where the first address holds a byte. -/
theorem readBytes_succ (mem : List Host.Cell) (addr k : Nat) (b : Byte) (h : Memory.read mem addr = some b) :
    Memory.readBytes mem addr (k + 1) = (Memory.readBytes mem (addr + 1) k).map (b :: ·) := by
  simp only [Memory.readBytes, h]
  cases Memory.readBytes mem (addr + 1) k <;> rfl

end Sys2Proof.Machine
end

