-- ==== Sys2Proof/Laws/PerInstr.lean ====
section
/-! SUPPORT. Statements for every instruction, as one lemma per constructor. -/

namespace Sys2Proof.Laws.EncodedLength

/-- The encoder writes as many bytes as the instruction is long (30_encoding.md R86). -/
def Statement (i : Instr) : Prop :=
  (encode i).length = i.length

theorem andRA1Rrx (cond : Cond) (d n m : Reg) : Statement (.andRA1Rrx cond d n m) := rfl

theorem andRA1 (cond : Cond) (d n m : Reg) (shift : SRType) (amount : Nat) :
    Statement (.andRA1 cond d n m shift amount) := rfl

theorem andsRA1Rrx (cond : Cond) (d n m : Reg) : Statement (.andsRA1Rrx cond d n m) := rfl

theorem andsRA1 (cond : Cond) (d n m : Reg) (shift : SRType) (amount : Nat) :
    Statement (.andsRA1 cond d n m shift amount) := rfl

theorem andRT1 (dn m : LowReg) : Statement (.andRT1 dn m) := rfl

theorem andRT2Rrx (d n m : Reg) (sbz : Bool) : Statement (.andRT2Rrx d n m sbz) := rfl

theorem andRT2 (d n m : Reg) (sbz : Bool) (shift : SRType) (amount : Nat) :
    Statement (.andRT2 d n m sbz shift amount) := rfl

theorem andsRT2Rrx (d n m : Reg) (sbz : Bool) : Statement (.andsRT2Rrx d n m sbz) := rfl

theorem andsRT2 (d n m : Reg) (sbz : Bool) (shift : SRType) (amount : Nat) :
    Statement (.andsRT2 d n m sbz shift amount) := rfl

end Sys2Proof.Laws.EncodedLength
end

