-- ==== Sys2Proof/Laws/Step.lean ====
section
/-! SUPPORT. A step, said once: it is the meaning of the instruction that `fetchDecode` gives; and what the fetch gives
where the bytes are there, and where one is not. -/

namespace Sys2Proof.Machine

/-- A step that answers a next state ran an instruction that the fetched bytes decode to. -/
theorem step_next (s t : State) (h : step s = .next t) : ∃ i, fetchDecode s = .next i ∧ exec i s = .next t := by
  unfold step at h
  split at h
  · rename_i i hi
    exact ⟨i, hi, h⟩
  · cases h
  · cases h

/-- An instruction that `fetchDecode` gives came from an aligned pc, outside Illegal Execution state, with no IT state in
A32, by the decoder. -/
theorem fetchDecode_next (s : State) (i : Instr) (h : fetchDecode s = .next i) :
    s.pcAligned = true ∧ s.pstate.il = false ∧ s.itFitsSet = true ∧
      ∃ bs rest, fetch s = .next bs ∧ decode s.pstate.t bs = .instr i rest := by
  unfold fetchDecode at h
  split at h
  · rename_i bs hb
    split at h
    · cases h
    · rename_i hil
      split at h
      · rename_i hit
        have ha : s.pcAligned = true := by
          by_contra hn
          simp [fetch, hn] at hb
        refine ⟨ha, by simpa using hil, hit, bs, ?_⟩
        unfold decodeFetched at h
        split at h
        · rename_i i' rest hd
          cases h
          exact ⟨rest, hb, hd⟩
        · cases h
        · cases h
      · cases h
  · cases h
  · cases h

/-! ### Reading bytes -/

/-- Reading bytes stops at the first address that holds none. -/
theorem readBytes_error (mem : List Host.Cell) (count addr k : Nat) (hk : k < count)
    (hj : ∀ j, j < k → Memory.read mem (addr + j) ≠ none) (hn : Memory.read mem (addr + k) = none) :
    Memory.readBytes mem addr count = .error (addr + k) := by
  induction count generalizing addr k with
  | zero => omega
  | succ c ih =>
    cases k with
    | zero =>
      simp only [Nat.add_zero] at hn
      simp [Memory.readBytes, hn]
    | succ k =>
      obtain ⟨b, hb⟩ := Option.ne_none_iff_exists'.mp (hj 0 (by omega))
      have hj' : ∀ j, j < k → Memory.read mem (addr + 1 + j) ≠ none := by
        intro j h
        have := hj (j + 1) (by omega)
        rwa [show addr + 1 + j = addr + (j + 1) by omega]
      rw [readBytes_succ _ _ _ b (by simpa using hb),
        ih (addr + 1) k (by omega) hj' (by rwa [show addr + 1 + k = addr + (k + 1) by omega])]
      simp only [Except.map, Except.error.injEq]
      omega

theorem readBytes_two (mem : List Host.Cell) (addr : Nat) (b0 b1 : Byte) (h0 : Memory.read mem addr = some b0)
    (h1 : Memory.read mem (addr + 1) = some b1) : Memory.readBytes mem addr 2 = .ok [b0, b1] := by
  simp [Memory.readBytes, h0, h1]

theorem readBytes_four (mem : List Host.Cell) (addr : Nat) (b0 b1 b2 b3 : Byte)
    (h0 : Memory.read mem addr = some b0) (h1 : Memory.read mem (addr + 1) = some b1)
    (h2 : Memory.read mem (addr + 2) = some b2) (h3 : Memory.read mem (addr + 3) = some b3) :
    Memory.readBytes mem addr 4 = .ok [b0, b1, b2, b3] := by
  simp [Memory.readBytes, h0, h1, h2, h3]

/-! ### A step by its fetch -/

/-- Where the fetch succeeds outside Illegal Execution state, with no IT state in A32, the step is the decoder's answer. -/
theorem fetchDecode_of_fetch (s : State) (bs : List Byte) (hf : fetch s = .next bs) (hil : s.pstate.il = false)
    (hit : s.itFitsSet = true) : fetchDecode s = decodeFetched s bs := by
  simp [fetchDecode, hf, hil, hit]

/-- A nonzero IT state in A32 is refused once the bytes are fetched. -/
theorem step_of_misfit_it (s : State) (bs : List Byte) (hf : fetch s = .next bs) (hil : s.pstate.il = false)
    (hit : s.itFitsSet = false) : step s = .refused .illFormedIT := by
  simp [step, fetchDecode, hf, hil, hit]

/-- A fetch that faults ends the step so. -/
theorem step_of_fetch_fault (s : State) (f : Fault) (h : fetch s = .fault f) : step s = .fault f := by
  simp [step, fetchDecode, h]

/-- A fetch that is refused ends the step so. -/
theorem step_of_fetch_refused (s : State) (r : Refusal) (h : fetch s = .refused r) : step s = .refused r := by
  simp [step, fetchDecode, h]

end Sys2Proof.Machine
end

