-- ==== Sys2Proof/Tests/Slice0.lean ====
section
/-! SUPPORT. Tests of the model: ill-formed terms, words written out from the formats, single steps with the values of
95_test_vectors.md, and a witness for the hypotheses of every statement that has some. -/

namespace Sys2Proof.Tests

open Sys2Proof Sys2Proof.Machine

/-! ### Small states -/

/-- Supervisor mode, A32, at 0x00008000, the flags given, everything else as after reset. -/
def a32 (n z c v : Bool) : State :=
  { State.reset with
    pc := 0x00008000#32
    pstate := { PState.reset with n := n, z := z, c := c, v := v } }

/-- The same in T32 with an IT state. -/
def t32 (it : BitVec 8) (n z c v : Bool) : State :=
  { State.reset with
    pc := 0x00008000#32
    pstate := { PState.reset with n := n, z := z, c := c, v := v, t := true, it := it } }

/-- With registers written. -/
def withRegs (s : State) (l : List (Reg × Word)) : State :=
  l.foldl (fun s p => s.writeReg p.1 p.2) s

/-- In another mode. -/
def withMode (s : State) (m : Mode) (el : BitVec 2) : State :=
  { s with pstate := { s.pstate with mode := m, el := el } }

/-- At another address. -/
def atPc (s : State) (pc : Word) : State :=
  { s with pc := pc }

/-- One step with the word placed at the pc, and whether it gives a next state that `p` accepts. -/
def runs (nbits w : Nat) (s : State) (p : State → Bool) : Bool :=
  match step (s.withFetchWord nbits w) with
  | .next t => p t
  | .fault _ => false
  | .refused _ => false

/-- Whether a step stops with the fault. -/
def faults (nbits w : Nat) (s : State) (f : Fault) : Bool :=
  match step (s.withFetchWord nbits w) with
  | .next _ => false
  | .fault g => f == g
  | .refused _ => false

/-- Whether a step stops with the refusal. -/
def refuses (nbits w : Nat) (s : State) (r : Refusal) : Bool :=
  match step (s.withFetchWord nbits w) with
  | .next _ => false
  | .fault _ => false
  | .refused q => r == q

/-- N, Z, C, V as a four-bit number. -/
def nzcv (s : State) : BitVec 4 :=
  BitVec.ofBool s.pstate.n ++ BitVec.ofBool s.pstate.z ++ BitVec.ofBool s.pstate.c ++ BitVec.ofBool s.pstate.v

/-! ### Ill-formed terms (43_and_r_operation.md R154, 30_encoding.md R75) -/

theorem test_illFormed_amounts :
    (Instr.andRA1 .al 0#4 1#4 2#4 .lsl 32).wellFormed = false ∧
    (Instr.andRA1 .al 0#4 1#4 2#4 .lsr 0).wellFormed = false ∧
    (Instr.andsRA1 .al 0#4 1#4 2#4 .lsr 33).wellFormed = false ∧
    (Instr.andsRA1 .al 0#4 1#4 2#4 .asr 0).wellFormed = false ∧
    (Instr.andRT2 0#4 1#4 2#4 false .asr 33).wellFormed = false ∧
    (Instr.andRT2 0#4 1#4 2#4 false .ror 0).wellFormed = false ∧
    (Instr.andsRT2 0#4 1#4 2#4 false .ror 32).wellFormed = false ∧
    (Instr.andRA1 .al 0#4 1#4 2#4 .rrx 1).wellFormed = false := by decide

theorem test_illFormed_tst :
    (Instr.andsRT2 15#4 1#4 2#4 false .lsl 0).wellFormed = false ∧
    (Instr.andsRT2Rrx 15#4 1#4 2#4 false).wellFormed = false := by decide

/-! ### Words written out from the formats (30_encoding.md R71 to R76, 95_test_vectors.md 2.1) -/

/-- `cond 0000 000 S Rn Rd imm5 stype 0 Rm` with `cond` AL, `S` 0, Rn 7, Rd 6, imm5 0, stype 11, Rm 8. -/
theorem test_decode_andRA1Rrx :
    decodeTableWord 32 (0b1110#4 ++ 0b0000#4 ++ 0b000#3 ++ 0b0#1 ++ 0b0111#4 ++ 0b0110#4 ++ 0b00000#5 ++ 0b11#2 ++
      0b0#1 ++ 0b1000#4).toNat = some (.andRA1Rrx .al 6#4 7#4 8#4) := by decide

/-- Rn 4, Rd 3, LSL #4, Rm 5; and `AND r0, r1, r2`, `ANDNE r3, r3, r5, LSL #4`, `AND pc, r0, r1`. -/
theorem test_decode_andRA1 :
    decodeTableWord 32 (0b1110#4 ++ 0b0000#4 ++ 0b000#3 ++ 0b0#1 ++ 0b0100#4 ++ 0b0011#4 ++ 0b00100#5 ++ 0b00#2 ++
      0b0#1 ++ 0b0101#4).toNat = some (.andRA1 .al 3#4 4#4 5#4 .lsl 4) ∧
    decodeTableWord 32 0xE0010002 = some (.andRA1 .al 0#4 1#4 2#4 .lsl 0) ∧
    decodeTableWord 32 0x10033205 = some (.andRA1 .ne 3#4 3#4 5#4 .lsl 4) ∧
    decodeTableWord 32 0xE000F001 = some (.andRA1 .al 15#4 0#4 1#4 .lsl 0) := by decide

/-- `S` 1, Rn 7, Rd 6, imm5 0, stype 11, Rm 8; and `ANDS r0, r0, r0, RRX`. -/
theorem test_decode_andsRA1Rrx :
    decodeTableWord 32 (0b1110#4 ++ 0b0000#4 ++ 0b000#3 ++ 0b1#1 ++ 0b0111#4 ++ 0b0110#4 ++ 0b00000#5 ++ 0b11#2 ++
      0b0#1 ++ 0b1000#4).toNat = some (.andsRA1Rrx .al 6#4 7#4 8#4) ∧
    decodeTableWord 32 0xE0100060 = some (.andsRA1Rrx .al 0#4 0#4 0#4) := by decide

/-- Rn 4, Rd 3, LSR #32 (amount field 0), Rm 5; ASR #32, ASR #1, ROR #8; `ANDSMI r4, r4, r4, LSR #1`. -/
theorem test_decode_andsRA1 :
    decodeTableWord 32 (0b1110#4 ++ 0b0000#4 ++ 0b000#3 ++ 0b1#1 ++ 0b0100#4 ++ 0b0011#4 ++ 0b00000#5 ++ 0b01#2 ++
      0b0#1 ++ 0b0101#4).toNat = some (.andsRA1 .al 3#4 4#4 5#4 .lsr 32) ∧
    decodeTableWord 32 0xE0143045 = some (.andsRA1 .al 3#4 4#4 5#4 .asr 32) ∧
    decodeTableWord 32 0xE01430C5 = some (.andsRA1 .al 3#4 4#4 5#4 .asr 1) ∧
    decodeTableWord 32 0xE0143465 = some (.andsRA1 .al 3#4 4#4 5#4 .ror 8) ∧
    decodeTableWord 32 0x401440A4 = some (.andsRA1 .mi 4#4 4#4 4#4 .lsr 1) := by decide

/-- `010000 0000 Rm Rdn` with Rm 1, Rdn 0; Rm 5, Rdn 2; Rm 7, Rdn 7. -/
theorem test_decode_andRT1 :
    decodeTableWord 16 (0b010000#6 ++ 0b0000#4 ++ 0b001#3 ++ 0b000#3).toNat = some (.andRT1 0#3 1#3) ∧
    decodeTableWord 16 0x402A = some (.andRT1 2#3 5#3) ∧
    decodeTableWord 16 0x403F = some (.andRT1 7#3 7#3) := by decide

/-- `1110101 0000 S Rn (0) imm3 Rd imm2 stype Rm` with `S` 0, Rn 9, imm3 0, Rd 8, imm2 0, stype 11, Rm 10. -/
theorem test_decode_andRT2Rrx :
    decodeTableWord 32 (0b1110101#7 ++ 0b0000#4 ++ 0b0#1 ++ 0b1001#4 ++ 0b0#1 ++ 0b000#3 ++ 0b1000#4 ++ 0b00#2 ++
      0b11#2 ++ 0b1010#4).toNat = some (.andRT2Rrx 8#4 9#4 10#4 false) := by decide

/-- Rn 9, imm3 010, Rd 8, imm2 00 (ROR #8), Rm 10; LSL #31, LSL #5, LSR #3; bit 15 set. -/
theorem test_decode_andRT2 :
    decodeTableWord 32 (0b1110101#7 ++ 0b0000#4 ++ 0b0#1 ++ 0b1001#4 ++ 0b0#1 ++ 0b010#3 ++ 0b1000#4 ++ 0b00#2 ++
      0b11#2 ++ 0b1010#4).toNat = some (.andRT2 8#4 9#4 10#4 false .ror 8) ∧
    decodeTableWord 32 0xEA0978CA = some (.andRT2 8#4 9#4 10#4 false .lsl 31) ∧
    decodeTableWord 32 0xEA051446 = some (.andRT2 4#4 5#4 6#4 false .lsl 5) ∧
    decodeTableWord 32 0xEA0504D6 = some (.andRT2 4#4 5#4 6#4 false .lsr 3) ∧
    decodeTableWord 32 0xEA018002 = some (.andRT2 0#4 1#4 2#4 true .lsl 0) := by decide

/-- `S` 1, Rn 9, imm3 0, Rd 8, imm2 0, stype 11, Rm 10. -/
theorem test_decode_andsRT2Rrx :
    decodeTableWord 32 (0b1110101#7 ++ 0b0000#4 ++ 0b1#1 ++ 0b1001#4 ++ 0b0#1 ++ 0b000#3 ++ 0b1000#4 ++ 0b00#2 ++
      0b11#2 ++ 0b1010#4).toNat = some (.andsRT2Rrx 8#4 9#4 10#4 false) := by decide

/-- Rn 9, imm3 000, Rd 8, imm2 00, stype 01 (LSR #32), Rm 10; ASR #17; R13 in every position. -/
theorem test_decode_andsRT2 :
    decodeTableWord 32 (0b1110101#7 ++ 0b0000#4 ++ 0b1#1 ++ 0b1001#4 ++ 0b0#1 ++ 0b000#3 ++ 0b1000#4 ++ 0b00#2 ++
      0b01#2 ++ 0b1010#4).toNat = some (.andsRT2 8#4 9#4 10#4 false .lsr 32) ∧
    decodeTableWord 32 0xEA19486A = some (.andsRT2 8#4 9#4 10#4 false .asr 17) ∧
    decodeTableWord 32 0xEA1D0D0D = some (.andsRT2 13#4 13#4 13#4 false .lsl 0) := by decide

/-- The words of 95_test_vectors.md 2.2 that are none of the nine encodings. -/
theorem test_decode_otherWords :
    decodeTableWord 32 0xF0010002 = none ∧ decodeTableWord 32 0xE0010012 = none ∧
    decodeTableWord 32 0xE0210002 = none ∧ decodeTableWord 32 0xE2010002 = none ∧
    decodeTableWord 32 0xEA110F02 = none ∧ decodeTableWord 16 0x4048 = none ∧
    decodeTableWord 32 0xEA410002 = none := by decide

/-! ### Single steps (the worked examples of 40 to 42 and 95_test_vectors.md 2.5 to 2.8) -/

theorem test_step_andRA1Rrx :
    runs 32 0xE0076068 (withRegs (a32 false false true false) [(7#4, 0xFFFFFFFF#32), (8#4, 0x00000002#32)])
      (fun t => t.readReg 6#4 == 0x80000001#32 && nzcv t == 0b0010#4 && t.pc == 0x00008004#32) = true := by decide

theorem test_step_andRA1 :
    runs 32 0xE0043205 (withRegs (a32 true true false true) [(4#4, 0x0F0F0F0F#32), (5#4, 0xF0F0F0F0#32)])
      (fun t => t.readReg 3#4 == 0x0F0F0F00#32 && nzcv t == 0b1101#4 && t.pc == 0x00008004#32) = true := by decide

theorem test_step_andRA1_toPc :
    runs 32 0xE000F001 (withRegs (a32 false false false false) [(0#4, 0x00009001#32), (1#4, 0xFFFFFFFF#32)])
      (fun t => t.pc == 0x00009000#32 && t.pstate.t) = true := by decide

theorem test_step_andsRA1Rrx :
    runs 32 0xE0100060 (withRegs (a32 false false true false) [(0#4, 0xC0000003#32)])
      (fun t => t.readReg 0#4 == 0xC0000001#32 && nzcv t == 0b1010#4) = true := by decide

theorem test_step_andsRA1 :
    runs 32 0xE0143025 (withRegs (a32 false false false true) [(4#4, 0xFFFFFFFF#32), (5#4, 0x80000001#32)])
      (fun t => t.readReg 3#4 == 0#32 && nzcv t == 0b0111#4) = true := by decide

/-- A failed condition in Hyp mode: `ANDSEQ pc, r0, r1` with Z clear only advances the pc; passing, it is UNDEFINED. -/
theorem test_step_andsRA1_hyp :
    runs 32 0x0010F001 (withMode (a32 false false false false) .hyp 2#2)
      (fun t => t.pc == 0x00008004#32 && !t.pstate.t) = true ∧
    faults 32 0xE010F001 (withMode (a32 false false false false) .hyp 2#2) .undefined = true := by decide

theorem test_step_andRT1_outside :
    runs 16 0x4008 (withRegs (t32 0x00#8 false true false true) [(0#4, 0xF0F0F0F0#32), (1#4, 0xFFFF0000#32)])
      (fun t => t.readReg 0#4 == 0xF0F00000#32 && nzcv t == 0b1001#4 && t.pstate.it == 0#8 &&
        t.pc == 0x00008002#32) = true := by decide

theorem test_step_andRT1_inside :
    runs 16 0x4008 (withRegs (t32 0x18#8 false true false true) [(0#4, 0xF0F0F0F0#32), (1#4, 0xFFFF0000#32)])
      (fun t => t.readReg 0#4 == 0xF0F0F0F0#32 && nzcv t == 0b0101#4 && t.pstate.it == 0#8) = true ∧
    runs 16 0x4008 (withRegs (t32 0x06#8 false true false true) [(0#4, 0xF0F0F0F0#32), (1#4, 0xFFFF0000#32)])
      (fun t => t.readReg 0#4 == 0xF0F00000#32 && nzcv t == 0b0101#4 && t.pstate.it == 0x0C#8) = true := by decide

theorem test_step_andRT2Rrx :
    runs 32 0xEA09083A (withRegs (t32 0x00#8 false false true false) [(9#4, 0xFFFFFFFF#32), (10#4, 0x00000002#32)])
      (fun t => t.readReg 8#4 == 0x80000001#32 && nzcv t == 0b0010#4 && t.pc == 0x00008004#32) = true := by decide

theorem test_step_andRT2 :
    runs 32 0xEA09283A (withRegs (t32 0x00#8 false false false false) [(9#4, 0xFFFFFFFF#32), (10#4, 0x000000FF#32)])
      (fun t => t.readReg 8#4 == 0xFF000000#32 && nzcv t == 0b0000#4) = true := by decide

theorem test_step_andsRT2Rrx :
    runs 32 0xEA19083A (withRegs (t32 0x00#8 true false true false) [(9#4, 0x7FFFFFFF#32)])
      (fun t => t.readReg 8#4 == 0#32 && nzcv t == 0b0100#4) = true := by decide

/-- In an IT block too (program 2 of 95_test_vectors.md, launch (b), step 2). -/
theorem test_step_andsRT2 :
    runs 32 0xEA130204 (withRegs (t32 0x18#8 false false false false) [(3#4, 0x80000001#32), (4#4, 0xFFFFFFFF#32)])
      (fun t => t.readReg 2#4 == 0x80000001#32 && nzcv t == 0b1000#4 && t.pstate.it == 0#8) = true := by decide

theorem test_step_refusals :
    refuses 32 0xEA010F02 (t32 0x00#8 false false false false) (.unpredictable .t2PcOperand) = true ∧
    refuses 32 0xEA0F0002 (t32 0x00#8 false false false false) (.unpredictable .t2PcOperand) = true ∧
    refuses 32 0xEA018002 (t32 0x00#8 false false false false) (.unpredictable .t2SbzBit15) = true ∧
    refuses 32 0xEA110F02 (t32 0x00#8 false false false false) (.notInScope 0xEA110F02#32) = true ∧
    refuses 16 0x4048 (t32 0x00#8 false false false false) (.notInScope 0x4048#32) = true := by decide

/-! ### Witnesses of the statements' hypotheses -/

/-- `AND r0, r1, r2` at an address. -/
def andAt (pc : Word) : State :=
  (atPc (a32 false false false false) pc).withFetchWord 32 0xE0010002

/-- The T1 word 4008 at an address. -/
def narrowAt (pc : Word) : State :=
  (atPc (t32 0#8 false false false false) pc).withFetchWord 16 0x4008

/-- `AND.W r0, r1, r2` at an address. -/
def wideAt (pc : Word) : State :=
  (atPc (t32 0#8 false false false false) pc).withFetchWord 32 0xEA010002

/-- `ANDS pc, r0, r1` in Supervisor mode with an SPSR. -/
def returnAt (spsr : Word) : State :=
  let s := (withRegs (a32 false false false false) [(0#4, 0x00009000#32), (1#4, 0xFFFFFFFF#32)]).withFetchWord 32
    0xE010F001
  { s with spsr := { s.spsr with svc := spsr } }

/-- StepRunsTheDecodedInstruction: each clause at the highest pc it covers. -/
theorem test_witness_step :
    ((andAt 0xFFFFFFF8#32).pcAligned = true ∧ (andAt 0xFFFFFFF8#32).pstate.il = false ∧
      (andAt 0xFFFFFFF8#32).pstate.it = 0#8 ∧
      (andAt 0xFFFFFFF8#32).pstate.t = false ∧ 0xFFFFFFF8 + 4 < 2 ^ 32 ∧
      (List.range 4).map (fun k => Memory.read (andAt 0xFFFFFFF8#32).imem (0xFFFFFFF8 + k)) =
        [some 0x02#8, some 0x00#8, some 0x01#8, some 0xE0#8] ∧
      decodeA1 (wordA32 0x02#8 0x00#8 0x01#8 0xE0#8) = some (.andRA1 .al 0#4 1#4 2#4 .lsl 0)) ∧
    ((narrowAt 0xFFFFFFFC#32).pcAligned = true ∧ (narrowAt 0xFFFFFFFC#32).pstate.t = true ∧
      0xFFFFFFFC + 2 < 2 ^ 32 ∧
      (List.range 2).map (fun k => Memory.read (narrowAt 0xFFFFFFFC#32).imem (0xFFFFFFFC + k)) =
        [some 0x08#8, some 0x40#8] ∧
      isWide (half 0x08#8 0x40#8) = false ∧ decodeT1 (half 0x08#8 0x40#8) = some (.andRT1 0#3 1#3)) ∧
    ((wideAt 0xFFFFFFFA#32).pcAligned = true ∧ (wideAt 0xFFFFFFFA#32).pstate.t = true ∧ 0xFFFFFFFA + 4 < 2 ^ 32 ∧
      (List.range 4).map (fun k => Memory.read (wideAt 0xFFFFFFFA#32).imem (0xFFFFFFFA + k)) =
        [some 0x01#8, some 0xEA#8, some 0x02#8, some 0x00#8] ∧
      isWide (half 0x01#8 0xEA#8) = true ∧
      decodeT2 (wordT32 0x01#8 0xEA#8 0x02#8 0x00#8) = some (.andRT2 0#4 1#4 2#4 false .lsl 0)) := by decide

/-- DecodeOfEncodeIsTheInstruction, at the ends of the amounts' ranges, and OpcodeRowsDoNotOverlap. -/
theorem test_witness_wellFormed :
    (Instr.andRA1 .le 15#4 15#4 15#4 .lsl 31).wellFormed = true ∧
    (Instr.andsRA1 .eq 15#4 0#4 15#4 .lsr 32).wellFormed = true ∧
    (Instr.andRT2 15#4 15#4 15#4 true .ror 31).wellFormed = true ∧
    (Instr.andsRT2 14#4 0#4 15#4 false .asr 32).wellFormed = true ∧
    (Instr.andsRT2Rrx 14#4 15#4 0#4 true).wellFormed = true := by decide

/-- EncodeOfDecodeIsTheWord, DecodedInstructionsAreWellFormed, DecoderAgreesWithTheOpcodeTable and
OpcodeRowsDoNotOverlap: words that decode and are their rows'. -/
theorem test_witness_decoded :
    decodeA1 0xE0143025#32 = some (.andsRA1 .al 3#4 4#4 5#4 .lsr 32) ∧
    (Instr.andsRA1 .al 3#4 4#4 5#4 .lsr 32).row.holds 0xE0143025#32 = true ∧
    decodeT1 0x4008#16 = some (.andRT1 0#3 1#3) ∧ (Instr.andRT1 0#3 1#3).row.holds 0x4008#32 = true ∧
    decodeT2 0xEA19081A#32 = some (.andsRT2 8#4 9#4 10#4 false .lsr 32) ∧
    (Instr.andsRT2 8#4 9#4 10#4 false .lsr 32).row.holds 0xEA19081A#32 = true ∧
    decode true [0x08#8, 0x40#8, 0xFF#8] = .instr (.andRT1 0#3 1#3) [0xFF#8] := by decide

/-- Cond1111IsNotInScope and TstPatternIsNotInScope. -/
theorem test_witness_notInScope :
    (0xF0010002#32).extractLsb' 28 4 = 15#4 ∧ 0xEA110F02#32 &&& 0xFFF00F00#32 = 0xEA100F00#32 := by decide

/-- AmountsAreStoredModulo32, at both ends. -/
theorem test_witness_amounts :
    SRType.lsl.validAmount 31 = true ∧ amountField 31 = 31#5 ∧ SRType.lsr.validAmount 32 = true ∧
    amountField 32 = 0#5 ∧ SRType.asr.validAmount 1 = true ∧ SRType.ror.validAmount 31 = true := by decide

/-- LslMultipliesModulo, LsrDividesUnsigned, AsrDividesSigned and RorRotates at the ends of their ranges, with the
values of 95_test_vectors.md 2.3. -/
theorem test_witness_shifts :
    shiftC 0x80000001#32 .lsl 1 false = (0x00000002#32, true) ∧
    shiftC 0x80000001#32 .lsl 31 false = (0x80000000#32, false) ∧
    shiftC 0x80000001#32 .lsr 1 false = (0x40000000#32, true) ∧
    shiftC 0x7FFFFFFF#32 .lsr 32 true = (0x00000000#32, false) ∧
    shiftC 0x80000001#32 .asr 31 false = (0xFFFFFFFF#32, false) ∧
    shiftC 0x80000001#32 .asr 32 false = (0xFFFFFFFF#32, true) ∧
    shiftC 0x80000001#32 .ror 1 false = (0xC0000000#32, true) ∧
    shiftC 0x80000001#32 .ror 31 true = (0x00000003#32, false) := by decide

/-- RegisterReads and RegisterWriteFrame: two registers below 15, a state of each instruction set. -/
theorem test_witness_registers :
    14#4 ≠ 15#4 ∧ 13#4 ≠ 14#4 ∧ (a32 false false false false).pstate.t = false ∧
    (t32 0#8 false false false false).pstate.t = true := by decide

/-- BankedRegisters: register numbers in each range. -/
theorem test_witness_banks :
    (7#4).toNat < 8 ∧ 8 ≤ (8#4).toNat ∧ (12#4).toNat < 13 ∧ 14#4 ≠ 15#4 ∧
    physIndex .irq 14#4 = physIndex .irq 14#4 := by decide

/-- ItAdvanceShiftsTheMask and ItAdvanceKeepsWellFormedIT, with the values of 95_test_vectors.md 2.8. -/
theorem test_witness_it :
    (0x18#8).toNat % 8 = 0 ∧ itAdvance 0x18#8 = 0x00#8 ∧ (0x0C#8).toNat % 8 ≠ 0 ∧ itAdvance 0x0C#8 = 0x18#8 ∧
    itWellFormed 0x06#8 = true ∧ itAdvance 0x06#8 = 0x0C#8 ∧ itWellFormed 0xE8#8 = true ∧
    (t32 0x0C#8 false false false false).pstate.it = 0x0C#8 := by decide

/-- The four A1 statements: a state where the condition passes and one where it fails, destinations below 15 and 15, a
shift at the end of its range. Also PcReadsAsAddressPlusEight and AndWithItselfChangesOnlyThePc. -/
theorem test_witness_a1 :
    condHolds .eq (a32 false true false false).pstate = true ∧
    condHolds .eq (a32 false false false false).pstate = false ∧ 14#4 ≠ 15#4 ∧
    SRType.asr.validAmount 32 = true ∧ (a32 false true false false).pstate.t = false := by decide

/-- AndT1OutsideItBlockSetsFlags and AndT1InsideItBlockKeepsFlags, with the condition passing and failing. -/
theorem test_witness_t1 :
    (t32 0#8 false false false false).inITBlock = false ∧
    (t32 0x18#8 false false false false).inITBlock = true ∧
    Cond.ofBits ((t32 0x18#8 false false false false).pstate.it.extractLsb' 4 4) = some .ne ∧
    condHolds .ne (t32 0x18#8 false false false false).pstate = true ∧
    condHolds .ne (t32 0x18#8 false true false false).pstate = false := by decide

/-- The four T2 statements, outside an IT block and in one. -/
theorem test_witness_t2 :
    (t32 0#8 false false false false).itCond = some .al ∧
    (t32 0x18#8 false true false false).itCond = some .ne ∧
    condHolds .al (t32 0#8 false false false false).pstate = true ∧
    condHolds .ne (t32 0x18#8 false true false false).pstate = false ∧ 13#4 ≠ 15#4 ∧
    SRType.lsr.validAmount 32 = true := by decide

/-- AndToThePcIsAnInterworkingBranch, its two targets, and UnalignedA32TargetHasTwoOutcomes. -/
theorem test_witness_branch :
    (a32 false false false false).pstate.t = false ∧ condHolds .al (a32 false false false false).pstate = true ∧
    SRType.lsl.validAmount 0 = true ∧ SRType.ror.validAmount 31 = true ∧ (0x00009001#32).toNat % 2 = 1 ∧ (0x00009000#32).toNat % 4 = 0 ∧
    (0x00009002#32).toNat % 4 = 2 := by decide

/-- AndsToThePcInHypIsUndefined and AndsToThePcInUserAndSystem. -/
theorem test_witness_modes :
    (withMode (a32 false false false false) .hyp 2#2).pstate.mode = .hyp ∧
    condHolds .al (withMode (a32 false false false false) .hyp 2#2).pstate = true ∧
    condHolds .eq (withMode (a32 false false false false) .hyp 2#2).pstate = false ∧
    (withMode (a32 false false false false) .user 0#2).pstate.mode = .user ∧
    (withMode (a32 false false false false) .system 1#2).pstate.mode = .system := by decide

/-- ExceptionReturnRestoresPstate and LegalReturnMakesCpsrOfSpsr: a legal return to User mode in T32; an illegal one, to
the number 00000. -/
theorem test_witness_return :
    (returnAt 0xF0000030#32).pstate.mode ≠ .hyp ∧ (returnAt 0xF0000030#32).currentSpsr = some 0xF0000030#32 ∧
    returnTarget (returnAt 0xF0000030#32).pstate 0xF0000030#32 = some .user ∧
    returnTarget (returnAt 0x00000000#32).pstate 0x00000000#32 = none := by decide

/-- The effect of the first: User mode, T32, the flags of the SPSR, the pc at the result. -/
theorem test_step_andsRA1_return :
    (match step (returnAt 0xF0000030#32) with
      | .next t => t.pstate.mode == .user && t.pstate.t && nzcv t == 0b1111#4 && t.pc == 0x00009000#32 &&
          !t.exclusive && !t.pstate.il
      | .fault _ => false
      | .refused _ => false) = true := by decide

/-- ExceptionReturnRestoresPstate, the mode of each SPSR. -/
theorem test_witness_currentSpsr :
    let s := { State.reset with spsr := ⟨1#32, 2#32, 3#32, 4#32, 5#32, 6#32, 7#32⟩ }
    [Mode.fiq, .irq, .supervisor, .monitor, .abort, .undefined, .user, .system].map
      (fun m => (withMode s m 1#2).currentSpsr) =
      [some 1#32, some 2#32, some 3#32, some 4#32, some 5#32, some 6#32, none, none] := by decide

/-- A return restores the SPSR's IT bits to A32 as to T32 (10_state.md R36, 43_and_r_operation.md R168 (3)). -/
theorem test_step_andsRA1_return_it :
    ([0x06000C10#32, 0x06000C30#32].map fun spsr =>
      match step (returnAt spsr) with
      | .next t => some (t.pstate.it, t.pstate.t)
      | .fault _ => none
      | .refused _ => none) = [some (0x0F#8, false), some (0x0F#8, true)] := by decide

/-- IllegalReturnEvents: an SPSR of each kind, and a mode at each level with targets on both sides of it. -/
theorem test_witness_illegalReturn :
    (0x0000000F#32).getLsbD 4 = false ∧ Mode.ofNumber ((0x00000014#32).extractLsb' 0 5) = none ∧
    Mode.hasLevel .user 0#2 = true ∧ Mode.hasLevel .supervisor 1#2 = true ∧ Mode.hasLevel .hyp 2#2 = true ∧
    Mode.hasLevel .monitor 3#2 = true ∧ Mode.hasLevel .irq 3#2 = true ∧
    Mode.number .system = (0x0000001F#32).extractLsb' 0 5 ∧ Mode.number .monitor = (0x00000016#32).extractLsb' 0 5 ∧
    returnTarget (withMode State.reset .supervisor 1#2).pstate 0x0000001F#32 = some .system ∧
    returnTarget (withMode State.reset .supervisor 1#2).pstate 0x00000016#32 = none ∧
    returnTarget (withMode State.reset .user 0#2).pstate 0x0000001F#32 = none := by decide

/-- IllegalStateFaultsAfterFetch. -/
theorem test_witness_illegalState :
    let s := { andAt 0x00008000#32 with pstate := { (andAt 0x00008000#32).pstate with il := true } }
    s.pstate.il = true ∧ fetch s = .next [0x02#8, 0x00#8, 0x01#8, 0xE0#8] := by
  exact ⟨rfl, rfl⟩

/-- T2Bit15IsRefused and T2PcOperandsAreRefused. -/
theorem test_witness_t2Stops :
    14#4 ≠ 15#4 ∧ itWellFormed (t32 0x0C#8 false false false false).pstate.it = true := by decide

/-- Condition1111AndItInA32AreRefused: a T32 state of each kind, and an A32 state with an IT state. -/
theorem test_witness_illFormedIt :
    (let s := { andAt 0x00008000#32 with pstate := { (andAt 0x00008000#32).pstate with it := 0x08#8 } }
     s.pstate.t = false ∧ s.pstate.it ≠ 0#8 ∧ s.pstate.il = false ∧
       fetch s = .next [0x02#8, 0x00#8, 0x01#8, 0xE0#8]) ∧ 13#4 ≠ 15#4 ∧
    (t32 0xF8#8 false false false false).inITBlock = true ∧
    (t32 0xF8#8 false false false false).pstate.it.extractLsb' 4 4 = 15#4 ∧
    itWellFormed (t32 0xE8#8 false false false false).pstate.it = true :=
  ⟨⟨rfl, by decide, rfl, rfl⟩, by decide⟩

/-- MisalignedFetchFaults. -/
theorem test_witness_misaligned :
    (atPc (a32 false false false false) 0x00008002#32).pstate.t = false ∧ (0x00008002#32).toNat % 4 ≠ 0 ∧
    (atPc (t32 0#8 false false false false) 0x00008001#32).pstate.t = true ∧ (0x00008001#32).toNat % 2 ≠ 0 := by decide

/-- UnmappedFetchFaults: an A32 word whose last byte is missing, an empty memory, a wide T32 instruction whose second
halfword is missing. -/
theorem test_witness_unmapped :
    let s := { a32 false false false false with imem := [(0x8000, 0x02#8), (0x8001, 0x00#8), (0x8002, 0x01#8)] }
    let u := { t32 0#8 false false false false with imem := [(0x8000, 0x01#8), (0x8001, 0xEA#8)] }
    s.pcAligned = true ∧ (∀ j, j < 3 → Memory.read s.imem (0x8000 + j) ≠ none) ∧
    Memory.read s.imem 0x8003 = none ∧ u.pcAligned = true ∧
    (∀ j, j < 2 → Memory.read u.imem (0x8000 + j) ≠ none) ∧ Memory.read u.imem 0x8002 = none ∧
    isWide (half 0x01#8 0xEA#8) = true ∧ Memory.read (t32 0#8 false false false false).imem 0x8000 = none := by decide

/-- PcWrapIsRefused: each length at the lowest pc that wraps. -/
theorem test_witness_wrap :
    (andAt 0xFFFFFFFC#32).pcAligned = true ∧ 2 ^ 32 ≤ 0xFFFFFFFC + 4 ∧
    Memory.read (andAt 0xFFFFFFFC#32).imem 0xFFFFFFFF = some 0xE0#8 ∧
    (narrowAt 0xFFFFFFFE#32).pcAligned = true ∧ 2 ^ 32 ≤ 0xFFFFFFFE + 2 ∧
    Memory.read (narrowAt 0xFFFFFFFE#32).imem 0xFFFFFFFF = some 0x40#8 ∧
    (wideAt 0xFFFFFFFC#32).pcAligned = true ∧
    Memory.read (wideAt 0xFFFFFFFC#32).imem 0xFFFFFFFD = some 0xEA#8 := by decide

/-- A32FetchIsLittleEndian and T32FetchIsByHalfwords (the states are those of test_witness_step), with the bytes of
20_memory.md R54. -/
theorem test_witness_fetch :
    wordA32 0x02#8 0x00#8 0x01#8 0xE0#8 = 0xE0010002#32 ∧ wordT32 0x01#8 0xEA#8 0x02#8 0x00#8 = 0xEA010002#32 := by
  decide

/-- OtherWordsAreRefused. -/
theorem test_witness_otherWords :
    let s := (a32 false false false false).withFetchWord 32 0xE0210002
    fetch s = .next (bytesA32 0xE0210002#32) ∧ s.pstate.il = false ∧ s.pstate.it = 0#8 ∧
    decode s.pstate.t (bytesA32 0xE0210002#32) = .notInScope 0xE0210002#32 := by
  exact ⟨rfl, rfl, rfl, by decide⟩

/-- StepKeepsTheInvariant: a state with the invariant from which a step goes on, at the highest pc. -/
theorem test_witness_invariant : (andAt 0xFFFFFFF8#32).Inv ∧ isNext (step (andAt 0xFFFFFFF8#32)) = true :=
  ⟨{ memory := by decide, pcBit0 := by decide, pcBit1 := fun _ h => absurd h (by decide), a32HasNoIT := by decide,
     itForm := by decide, level := by decide, hypExists := by decide, spsrFiq := by decide, spsrIrq := by decide,
     spsrSvc := by decide, spsrMon := by decide, spsrAbt := by decide, spsrUnd := by decide }, by decide⟩

/-- ProgramAndSpsrsNeverChange, EveryOtherStepAdvancesThePc and OnlyExceptionReturnChangesTheRestOfPstate: a step that
goes on and the instruction it runs. -/
theorem test_witness_next :
    fetchDecode (andAt 0x00008000#32) = .next (.andRA1 .al 0#4 1#4 2#4 .lsl 0) ∧
    isNext (step (andAt 0x00008000#32)) = true ∧ isNext (step (returnAt 0xF0000030#32)) = true := by
  exact ⟨rfl, by decide, by decide⟩

/-- OnlyWritingThePcChangesTheInstructionSet: `AND pc, r0, r1` to an odd address. -/
theorem test_witness_entersT32 :
    runs 32 0xE000F001 (withRegs (a32 false false false false) [(0#4, 0x00009001#32), (1#4, 0xFFFFFFFF#32)])
      (fun t => t.pstate.t != (a32 false false false false).pstate.t) = true := by decide

/-- ResultsDoNotDependOnTheMode: an instruction that goes on, with the PC as a source, and one that is refused. -/
theorem test_witness_modeIndependence :
    (∀ r, r ∈ registersOf (.andRA1 .al 7#4 15#4 0#4 .lsl 0) → r.toNat < 8 ∨ r = 15#4) ∧
    isAndsToPc (.andRA1 .al 7#4 15#4 0#4 .lsl 0) = false ∧
    isNext (exec (.andRA1 .al 7#4 15#4 0#4 .lsl 0) (a32 false false false false)) = true ∧
    (∀ r, r ∈ registersOf (.andRT2 7#4 15#4 0#4 false .lsl 0) → r.toNat < 8 ∨ r = 15#4) ∧
    isNext (exec (.andRT2 7#4 15#4 0#4 false .lsl 0) (t32 0#8 false false false false)) = false := by decide

end Sys2Proof.Tests
end

section
/-! SUPPORT. What a step can do, said once: the four ways an instruction answers a next state. -/

namespace Sys2Proof.Machine

/-! ### What an instruction computes -/

/-- The state with the general-purpose registers and N, Z and C that an instruction leaves before the step's end. -/
def State.withResult (s : State) (regs : Vector Word 33) (n z c : Bool) : State :=
  { s with regs := regs, pstate := { s.pstate with n := n, z := z, c := c } }

/-- A written result changes the general-purpose registers and N, Z and C alone. -/
theorem writeResult_eq_withResult (s : State) (f : Bool) (d : Reg) (v : Word) (carry : Bool) :
    ∃ regs n z c, writeResult s f d v carry = s.withResult regs n z c := by
  have hw : ∃ regs, s.writeReg d v = { s with regs := regs } := by
    unfold State.writeReg
    split
    · exact ⟨s.regs, rfl⟩
    · exact ⟨_, rfl⟩
  obtain ⟨regs, hw⟩ := hw
  unfold writeResult
  rw [hw]
  split
  · exact ⟨regs, _, _, _, rfl⟩
  · exact ⟨regs, s.pstate.n, s.pstate.z, s.pstate.c, rfl⟩

/-! ### The four ways to a next state -/

/-- An instruction of class A1, with its condition, whether it sets the flags, and its destination. -/
inductive IsA1 : Instr → Cond → Bool → Reg → Prop
  | andRrx (cond : Cond) (d n m : Reg) : IsA1 (.andRA1Rrx cond d n m) cond false d
  | and (cond : Cond) (d n m : Reg) (shift : SRType) (amount : Nat) :
      IsA1 (.andRA1 cond d n m shift amount) cond false d
  | andsRrx (cond : Cond) (d n m : Reg) : IsA1 (.andsRA1Rrx cond d n m) cond true d
  | ands (cond : Cond) (d n m : Reg) (shift : SRType) (amount : Nat) :
      IsA1 (.andsRA1 cond d n m shift amount) cond true d

theorem IsA1.isT32 {i : Instr} {cond : Cond} {f : Bool} {d : Reg} (h : IsA1 i cond f d) : i.isT32 = false := by
  cases h <;> rfl

/-- The A1 instructions with the PC as destination. -/
theorem IsA1.toPc {i : Instr} {cond : Cond} {f : Bool} (h : IsA1 i cond f 15#4) :
    ∃ n m, i = .andRA1Rrx cond 15#4 n m ∨ i = .andsRA1Rrx cond 15#4 n m ∨
      ∃ shift amount, i = .andRA1 cond 15#4 n m shift amount ∨ i = .andsRA1 cond 15#4 n m shift amount := by
  cases h with
  | andRrx _ _ n m => exact ⟨n, m, .inl rfl⟩
  | and _ _ n m shift amount => exact ⟨n, m, .inr (.inr ⟨shift, amount, .inl rfl⟩)⟩
  | andsRrx _ _ n m => exact ⟨n, m, .inr (.inl rfl)⟩
  | ands _ _ n m shift amount => exact ⟨n, m, .inr (.inr ⟨shift, amount, .inr rfl⟩)⟩

/-- The next states that instruction `i` can answer from `s` (43_and_r_operation.md R150, R170): the pc past the
instruction, a write of the PC, or an exception return. -/
inductive NextBy (i : Instr) (s : State) : State → Prop
  | advanceA32 (regs : Vector Word 33) (n z c : Bool) (hi : i.isT32 = false) :
      NextBy i s (s.withResult regs n z c).advanceA32
  | advanceT32 (regs : Vector Word 33) (n z c : Bool) (hi : i.isT32 = true) :
      NextBy i s ((s.withResult regs n z c).advanceT32 i.length)
  | writePc (cond : Cond) (address : Word) (hi : IsA1 i cond false 15#4) (hc : condHolds cond s.pstate = true) :
      NextBy i s (aluWritePC s address)
  | exceptionReturn (cond : Cond) (address spsr : Word) (hi : IsA1 i cond true 15#4)
      (hc : condHolds cond s.pstate = true) (hm : s.pstate.mode ≠ .hyp) (hs : s.currentSpsr = some spsr) :
      NextBy i s (exceptionReturn s address spsr)

/-- An A32 instruction that computes nothing, as where its condition fails, only moves the pc. -/
theorem nextBy_advanceA32 {i : Instr} (s : State) (hi : i.isT32 = false) : NextBy i s s.advanceA32 :=
  .advanceA32 s.regs s.pstate.n s.pstate.z s.pstate.c hi

theorem nextBy_of_executeA1 {i : Instr} {cond : Cond} {f : Bool} {d n m : Reg} {shift : SRType} {amount : Nat}
    {s t : State} (hi : IsA1 i cond f d) (h : executeA1 cond f d n m shift amount s = .next t) : NextBy i s t := by
  rw [executeA1_eq] at h
  split at h
  · cases h
    exact nextBy_advanceA32 s hi.isT32
  · rename_i hc
    have hc : condHolds cond s.pstate = true := by simpa using hc
    split at h
    · cases h
      obtain ⟨regs, n', z, c, hw⟩ := writeResult_eq_withResult s f d (andResult s n m shift amount).1
        (andResult s n m shift amount).2
      rw [hw]
      exact .advanceA32 regs n' z c hi.isT32
    · rename_i hd
      obtain rfl : d = 15#4 := not_not.mp hd
      cases f with
      | false =>
        cases h
        exact .writePc cond _ hi hc
      | true =>
        obtain ⟨spsr, hs, hm, rfl⟩ | ⟨-, rfl⟩ := aluExceptionReturn_next s t _ h
        · exact .exceptionReturn cond _ spsr hi hc hm hs
        · exact nextBy_advanceA32 s hi.isT32

theorem nextBy_of_executeT32 {i : Instr} {f : Bool} {d n m : Reg} {shift : SRType} {amount : Nat} {s t : State}
    (hi : i.isT32 = true) (h : executeT32 i.length f d n m shift amount s = .next t) : NextBy i s t := by
  obtain ⟨cond, -, rfl⟩ := executeT32_next _ _ _ _ _ _ _ _ _ h
  split
  · obtain ⟨regs, n', z, c, hw⟩ := writeResult_eq_withResult s f d (andResult s n m shift amount).1
      (andResult s n m shift amount).2
    rw [hw]
    exact .advanceT32 regs n' z c hi
  · exact .advanceT32 s.regs s.pstate.n s.pstate.z s.pstate.c hi

theorem nextBy_of_executeT2 {i : Instr} {word : Word} {f : Bool} {d n m : Reg} {sbz : Bool} {shift : SRType}
    {amount : Nat} {s t : State} (hi : i.isT32 = true) (hl : i.length = 4)
    (h : executeT2 word f d n m sbz shift amount s = .next t) : NextBy i s t := by
  obtain ⟨-, -, -, -, h⟩ := executeT2_next _ _ _ _ _ _ _ _ _ _ h
  exact nextBy_of_executeT32 hi (hl ▸ h)

/-- Everything an instruction can answer as a next state. -/
theorem exec_next (i : Instr) (s t : State) (h : exec i s = .next t) : NextBy i s t := by
  cases i with
  | andRA1Rrx cond d n m => exact nextBy_of_executeA1 (.andRrx cond d n m) h
  | andRA1 cond d n m shift amount => exact nextBy_of_executeA1 (.and cond d n m shift amount) h
  | andsRA1Rrx cond d n m => exact nextBy_of_executeA1 (.andsRrx cond d n m) h
  | andsRA1 cond d n m shift amount => exact nextBy_of_executeA1 (.ands cond d n m shift amount) h
  | andRT1 dn m => exact nextBy_of_executeT32 rfl h
  | andRT2Rrx d n m sbz => exact nextBy_of_executeT2 rfl rfl h
  | andRT2 d n m sbz shift amount => exact nextBy_of_executeT2 rfl rfl h
  | andsRT2Rrx d n m sbz => exact nextBy_of_executeT2 rfl rfl h
  | andsRT2 d n m sbz shift amount => exact nextBy_of_executeT2 rfl rfl h

/-- Everything a step can answer as a next state. -/
theorem step_nextBy (s t : State) (h : step s = .next t) : ∃ i, fetchDecode s = .next i ∧ NextBy i s t := by
  obtain ⟨i, hi, he⟩ := step_next s t h
  exact ⟨i, hi, exec_next i s t he⟩

/-! ### The instruction a step runs -/

/-- A fetched instruction is of the instruction set in force. -/
theorem fetchDecode_isT32 (s : State) (i : Instr) (h : fetchDecode s = .next i) : i.isT32 = s.pstate.t := by
  obtain ⟨-, -, -, bs, rest, -, hd⟩ := fetchDecode_next s i h
  exact decode_isT32 _ _ _ _ hd

theorem length_of_isT32_false (i : Instr) (h : i.isT32 = false) : i.length = 4 := by
  cases i <;> simp [Instr.isT32, Instr.length] at h ⊢

theorem length_mod_two (i : Instr) : i.length % 2 = 0 := by
  cases i <;> simp [Instr.length]

end Sys2Proof.Machine
end

section
/-! SUPPORT. Every step keeps the invariant, one lemma per way to a next state. -/

namespace Sys2Proof.Machine

/-! ### Addresses -/

theorem alignHalf_bit0 (a : Word) : (alignHalf a).getLsbD 0 = false := by
  simp only [getLsbD_zero_eq, alignHalf_toNat, decide_eq_false_iff_not]
  omega

theorem alignWord_bit0 (a : Word) : (alignWord a).getLsbD 0 = false := by
  simp only [getLsbD_zero_eq, alignWord_toNat, decide_eq_false_iff_not]
  omega

theorem alignWord_bit1 (a : Word) : (alignWord a).getLsbD 1 = false := by
  simp only [getLsbD_one_eq, alignWord_toNat, decide_eq_false_iff_not]
  omega

/-- Adding an even number keeps bit 0. -/
theorem add_even_bit0 (a : Word) (k : Nat) (hk : k % 2 = 0) :
    (a + BitVec.ofNat 32 k).getLsbD 0 = a.getLsbD 0 := by
  simp only [getLsbD_zero_eq, BitVec.toNat_add, BitVec.toNat_ofNat, decide_eq_decide]
  omega

/-- Adding 4 keeps bit 1. -/
theorem add_four_bit1 (a : Word) : (a + 4#32).getLsbD 1 = a.getLsbD 1 := by
  simp only [getLsbD_one_eq, BitVec.toNat_add, BitVec.toNat_ofNat, decide_eq_decide]
  omega

/-- An aligned A32 pc has bit 1 clear. -/
theorem bit1_of_pcAligned (s : State) (h : s.pcAligned = true) (ht : s.pstate.t = false) :
    s.pc.getLsbD 1 = false := by
  simp only [State.pcAligned, ht, Bool.and_eq_true, Bool.not_eq_true', Bool.false_eq_true, if_false] at h
  exact h.2

/-! ### The IT state and the mode -/

/-- `ITAdvance` keeps an IT state well-formed. -/
theorem itWellFormed_itAdvance : ∀ it : BitVec 8, itWellFormed it = true → itWellFormed (itAdvance it) = true := by
  decide

/-- The mode a legal return goes to has a level it can be at (60_exceptions.md R201). -/
theorem hasLevel_returnLevel (p : PState) (target : Mode) (h : p.mode.hasLevel p.el = true) :
    target.hasLevel (returnLevel p target) = true := by
  have privileged : (privilegedLevel p == 1#2 || privilegedLevel p == 3#2) = true := by
    unfold privilegedLevel
    cases hm : p.mode with
    | user => rfl
    | hyp => rfl
    | monitor => cases Config.el3UsesAArch32 <;> rfl
    | _ => simpa [hm, Mode.hasLevel] using h
  cases target with
  | user => rfl
  | hyp => rfl
  | monitor => rfl
  | _ => exact privileged

/-- A return, legal or not, leaves a mode at a level it can be at. -/
theorem returnMode_hasLevel (p : PState) (spsr : Word) (h : p.mode.hasLevel p.el = true) :
    (returnMode p spsr).mode.hasLevel (returnMode p spsr).el = true := by
  unfold returnMode
  split
  · exact hasLevel_returnLevel p _ h
  · exact h

/-- A return, legal or not, leaves a mode that exists. -/
theorem returnMode_implemented (p : PState) (spsr : Word) (h : p.mode.implemented = true) :
    (returnMode p spsr).mode.implemented = true := by
  unfold returnMode
  split
  · rename_i target ht
    obtain ⟨-, -, hi, -⟩ := (returnTarget_eq_some_iff p spsr target).mp ht
    exact hi
  · exact h

/-! ### The invariant -/

/-- The SPSR that an exception return reads is well-formed. -/
theorem State.Inv.currentSpsr {s : State} (hs : s.Inv) (hm : s.pstate.mode ≠ .hyp) {spsr : Word}
    (h : s.currentSpsr = some spsr) : spsrWellFormed spsr = true := by
  unfold State.currentSpsr at h
  split at h
  · cases h
  · cases h
  · cases h
    exact hs.spsrFiq
  · cases h
    exact hs.spsrIrq
  · cases h
    exact hs.spsrSvc
  · cases h
    exact hs.spsrMon
  · cases h
    exact hs.spsrAbt
  · cases h
    exact hs.spsrUnd
  · next hmode => exact absurd hmode hm

/-- The invariant says nothing of the registers and the flags. -/
theorem State.Inv.withResult {s : State} (hs : s.Inv) (regs : Vector Word 33) (n z c : Bool) :
    (s.withResult regs n z c).Inv :=
  { hs with }

theorem State.Inv.advanceA32 {s : State} (hs : s.Inv) (ha : s.pcAligned = true) (ht : s.pstate.t = false) :
    s.advanceA32.Inv :=
  { hs with
    pcBit0 := (add_even_bit0 s.pc 4 rfl).trans hs.pcBit0
    pcBit1 := fun _ h =>
      absurd ((add_four_bit1 s.pc).symm.trans h) (ne_true_of_eq_false (bit1_of_pcAligned s ha ht)) }

theorem State.Inv.advanceT32 {s : State} (hs : s.Inv) (ht : s.pstate.t = true) (len : Nat) (hl : len % 2 = 0) :
    (s.advanceT32 len).Inv :=
  { hs with
    pcBit0 := (add_even_bit0 s.pc len hl).trans hs.pcBit0
    pcBit1 := fun h => by simp [ht] at h
    a32HasNoIT := fun h => by simp [ht] at h
    itForm := itWellFormed_itAdvance _ hs.itForm }

/-- A branch from A32 to an address that the instruction set allows, or that the implementation leaves unaligned. -/
theorem State.Inv.branchTo {s : State} (hs : s.Inv) (ht : s.pstate.t = false) (t : Bool) (pc : Word)
    (h0 : pc.getLsbD 0 = false)
    (h1 : t = false → pc.getLsbD 1 = true → Config.a32UnalignedBranch = .faultAtTarget) : (s.branchTo t pc).Inv :=
  { hs with
    pcBit0 := h0
    pcBit1 := h1
    a32HasNoIT := fun _ => hs.a32HasNoIT ht }

theorem State.Inv.aluWritePC {s : State} (hs : s.Inv) (ht : s.pstate.t = false) (a : Word) :
    (aluWritePC s a).Inv := by
  rw [Machine.aluWritePC, if_neg (by simp [ht]), bxWritePC]
  split
  · exact hs.branchTo ht true _ (alignHalf_bit0 a) (by simp)
  · rename_i h0
    have h0 : a.getLsbD 0 = false := by simpa using h0
    split
    · split
      · exact hs.branchTo ht false _ (alignWord_bit0 a) fun _ h =>
          absurd h (ne_true_of_eq_false (alignWord_bit1 a))
      · rename_i hcfg
        exact hs.branchTo ht false a h0 fun _ _ => hcfg
    · rename_i h1
      exact hs.branchTo ht false a h0 fun _ h => absurd h h1

theorem State.Inv.exceptionReturn {s : State} (hs : s.Inv) (a spsr : Word) (hw : spsrWellFormed spsr = true) :
    (exceptionReturn s a spsr).Inv := by
  have ⟨hform, hset⟩ : itWellFormed (spsrIT spsr) = true ∧ (spsrT spsr = false → spsrIT spsr = 0#8) := by
    simp only [spsrWellFormed, Bool.and_eq_true, Bool.or_eq_true, beq_iff_eq] at hw
    exact ⟨hw.1, fun h => hw.2.resolve_left (by simp [h])⟩
  exact { hs with
    pcBit0 := by
      rw [exceptionReturn_pc]
      split
      · exact alignHalf_bit0 a
      · exact alignWord_bit0 a
    pcBit1 := fun (ht : spsrT spsr = false) h => by
      rw [exceptionReturn_pc, if_neg (ne_true_of_eq_false ht), alignWord_bit1] at h
      cases h
    a32HasNoIT := hset
    itForm := hform
    level := returnMode_hasLevel s.pstate spsr hs.level
    hypExists := returnMode_implemented s.pstate spsr hs.hypExists }

/-- Settles O53: each way to a next state keeps the invariant. -/
theorem stepKeepsTheInvariant : Obligations.StepKeepsTheInvariant := by
  intro s t hs h
  obtain ⟨i, hi, hnext⟩ := step_nextBy s t h
  obtain ⟨haligned, -, -, -⟩ := fetchDecode_next s i hi
  have hset := fetchDecode_isT32 s i hi
  cases hnext with
  | advanceA32 regs n z c hT => exact (hs.withResult regs n z c).advanceA32 haligned (hset ▸ hT)
  | advanceT32 regs n z c hT =>
    exact (hs.withResult regs n z c).advanceT32 (hset ▸ hT) i.length (length_mod_two i)
  | writePc cond address hA1 _ => exact hs.aluWritePC (hset ▸ hA1.isT32) address
  | exceptionReturn cond address spsr _ _ hm hspsr =>
    exact hs.exceptionReturn address spsr (hs.currentSpsr hm hspsr)

end Sys2Proof.Machine
end

section
/-! SUPPORT. The program text, the SPSRs, the instruction set and the pc over a step. -/

namespace Sys2Proof.Machine

/-- Writing the PC keeps the program text and the SPSRs. -/
theorem aluWritePC_frame (s : State) (a : Word) :
    (aluWritePC s a).imem = s.imem ∧ (aluWritePC s a).spsr = s.spsr := by
  obtain ⟨t, pc, h⟩ := aluWritePC_eq s a
  rw [h]
  exact ⟨rfl, rfl⟩

/-- Settles O55: none of the four ways to a next state touches IMEM or an SPSR. -/
theorem programAndSpsrsNeverChange : Obligations.ProgramAndSpsrsNeverChange := by
  intro s t h
  obtain ⟨i, -, hnext⟩ := step_nextBy s t h
  cases hnext with
  | advanceA32 | advanceT32 | exceptionReturn => exact ⟨rfl, rfl⟩
  | writePc _ address => exact aluWritePC_frame s address

/-- The A1 instructions that write the PC are the only ones whose next state can be in another instruction set. -/
theorem NextBy.writesPc_of_set_ne {i : Instr} {s t : State} (h : NextBy i s t) (ht : t.pstate.t ≠ s.pstate.t) :
    ∃ cond f, IsA1 i cond f 15#4 ∧ condHolds cond s.pstate = true := by
  cases h with
  | advanceA32 | advanceT32 => exact absurd rfl ht
  | writePc cond _ hi hc => exact ⟨cond, false, hi, hc⟩
  | exceptionReturn cond _ _ hi hc => exact ⟨cond, true, hi, hc⟩

/-- Settles O57: a change of PSTATE.T rules out the two ways that only advance the pc. -/
theorem onlyWritingThePcChangesTheInstructionSet : Obligations.OnlyWritingThePcChangesTheInstructionSet := by
  intro s t h ht
  obtain ⟨i, hi, hnext⟩ := step_nextBy s t h
  obtain ⟨cond, f, hA1, hc⟩ := hnext.writesPc_of_set_ne ht
  obtain ⟨n, m, hform⟩ := hA1.toPc
  refine ⟨cond, n, m, hc, ?_⟩
  simpa only [hi, Host.Outcome.next.injEq] using hform

/-- An instruction that does not write the PC moves it by its own length. -/
theorem NextBy.pc_or_writesPc {i : Instr} {s t : State} (h : NextBy i s t) :
    t.pc = s.pc + BitVec.ofNat 32 i.length ∨
      ∃ cond f, IsA1 i cond f 15#4 ∧ condHolds cond s.pstate = true := by
  cases h with
  | advanceA32 _ _ _ _ hi =>
    rw [length_of_isT32_false i hi]
    exact .inl rfl
  | advanceT32 => exact .inl rfl
  | writePc cond _ hi hc => exact .inr ⟨cond, false, hi, hc⟩
  | exceptionReturn cond _ _ hi hc => exact .inr ⟨cond, true, hi, hc⟩

/-- Settles O58: by the four ways to a next state. -/
theorem everyOtherStepAdvancesThePc : Obligations.EveryOtherStepAdvancesThePc := by
  intro s t i hi h
  obtain ⟨j, hj, hnext⟩ := step_nextBy s t h
  obtain rfl : i = j := Host.Outcome.next.inj (hi.symm.trans hj)
  refine hnext.pc_or_writesPc.imp_right ?_
  rintro ⟨cond, f, hA1, hc⟩
  obtain ⟨n, m, hform⟩ := hA1.toPc
  exact ⟨cond, n, m, hc, hform⟩

end Sys2Proof.Machine
end

section
/-! SUPPORT. Register reads and writes, and the IT state. -/

namespace Sys2Proof.Machine

/-- A register below 15 reads back the value written to it. -/
theorem readReg_writeReg_same (s : State) (d : Reg) (v : Word) (hd : d ≠ 15#4) : (s.writeReg d v).readReg d = v :=
  readReg_of_written s _ d v hd (by simp) fun _ => rfl

/-- A register below 15 keeps its value when another register is written. -/
theorem readReg_writeReg_of_ne (s : State) (d r : Reg) (v : Word) (hrd : r ≠ d) (hr : r ≠ 15#4) :
    (s.writeReg d v).readReg r = s.readReg r := by
  by_cases hd : d = 15#4
  · rw [hd, writeReg_pc_register]
  · have hphys : physIndex s.pstate.mode r ≠ physIndex s.pstate.mode d :=
      fun h => hrd (physIndex_injective _ _ _ hr hd h)
    exact readReg_congr s _ r (by simp) hr (by rw [physReg_writeReg _ _ _ _ hd, if_neg hphys])

/-- Register 15 as a number, in A32 (10_state.md R24). -/
theorem readReg_pc_a32 (s : State) (ht : s.pstate.t = false) :
    (s.readReg 15#4).toNat = (s.pc.toNat + 8) % 2 ^ 32 := by
  simp [State.readReg, ht, BitVec.toNat_add]

/-- Register 15 as a number, in T32 (10_state.md R24). -/
theorem readReg_pc_t32 (s : State) (ht : s.pstate.t = true) :
    (s.readReg 15#4).toNat = (s.pc.toNat + 4) % 2 ^ 32 := by
  simp [State.readReg, ht, BitVec.toNat_add]

/-- Settles O19: a read after a write by the banks' injectivity, register 15 by its definition. -/
theorem registerReads : Obligations.RegisterReads :=
  ⟨readReg_writeReg_same, readReg_writeReg_of_ne, readReg_pc_a32, readReg_pc_t32⟩

/-- A register write changes no physical register but the one it names. -/
theorem sameRegistersBut_writeReg (s : State) (d : Reg) (v : Word) : sameRegistersBut d s (s.writeReg d v) := by
  by_cases hd : d = 15#4
  · rw [hd, writeReg_pc_register]
    exact fun _ _ _ => rfl
  · exact sameRegistersBut_of_written s _ d v hd fun _ => rfl

/-- Settles O20: a write replaces one physical register, or none for register 15. -/
theorem registerWriteFrame : Obligations.RegisterWriteFrame := by
  intro s d v
  exact ⟨readReg_writeReg_same s d v, sameRegistersBut_writeReg s d v, writeReg_pc s d v, writeReg_pstate s d v,
    by simp [sameOutside], writeReg_pc_register s v⟩

/-- `ITAdvance` on numbers: the block ended, or IT[7:5] kept and IT[4:0] shifted left. -/
theorem itAdvance_toNat : ∀ it : BitVec 8,
    (it.toNat % 8 = 0 → itAdvance it = 0#8) ∧
      (it.toNat % 8 ≠ 0 → (itAdvance it).toNat = it.toNat / 32 * 32 + it.toNat * 2 % 32) := by
  decide

/-- A block is active exactly where the mask IT[3:0] is not zero. -/
theorem inITBlock_iff (s : State) : s.inITBlock = true ↔ s.pstate.it.toNat % 16 ≠ 0 := by
  simp [State.inITBlock, ← BitVec.toNat_inj, BitVec.extractLsb'_toNat]

/-- Settles O22: `ITAdvance` on each of the 256 values, `InITBlock` by its mask. -/
theorem itAdvanceShiftsTheMask : Obligations.ItAdvanceShiftsTheMask := by
  intro it
  obtain ⟨hend, hshift⟩ := itAdvance_toNat it
  exact ⟨hend, hshift, fun s hs => hs ▸ inITBlock_iff s⟩

end Sys2Proof.Machine
end

section
/-! SUPPORT. A legal exception return and the CPSR. -/

namespace Sys2Proof.Machine

/-- A PSTATE restored from an SPSR of its own mode has the SPSR's flags, Q, GE, E, masks and mode in its CPSR: the bits
of mask 0xF80F03DF (10_state.md R36). -/
theorem cpsr_restorePState_masked (draw : Nat) (p : PState) (spsr : Word)
    (hm : p.mode.number = spsr.extractLsb' 0 5) :
    (restorePState draw p spsr).cpsr &&& 0xF80F03DF#32 = spsr &&& 0xF80F03DF#32 := by
  apply BitVec.eq_of_getLsbD_eq
  intro i hi
  simp only [PState.cpsr, restorePState, hm, BitVec.getLsbD_and, BitVec.getLsbD_append, BitVec.getLsbD_extractLsb']
  interval_cases i <;> simp

/-- A legal return goes to the mode that its SPSR numbers. -/
theorem returnMode_number (p : PState) (spsr : Word) (target : Mode) (h : returnTarget p spsr = some target) :
    (returnMode p spsr).mode.number = spsr.extractLsb' 0 5 := by
  simp only [returnMode, h]
  exact returnTarget_number p spsr target h

/-- Settles O42: the mode comes from `returnMode`, every other bit of the mask from `restorePState`. -/
theorem legalReturnMakesCpsrOfSpsr : Obligations.LegalReturnMakesCpsrOfSpsr := by
  intro s a spsr target h
  exact cpsr_restorePState_masked s.draws _ spsr (returnMode_number s.pstate spsr target h)

end Sys2Proof.Machine
end

section
/-! SUPPORT. The condition of an IT block, and the stops it makes. -/

namespace Sys2Proof.Machine

/-- An IT block whose condition field is 1111 names no condition. -/
theorem itCond_of_1111 (s : State) (hb : s.inITBlock = true) (h : s.pstate.it.extractLsb' 4 4 = 15#4) :
    s.itCond = none := by
  rw [State.itCond, if_pos hb, h]
  rfl

/-- Without a condition the T32 operation is refused. -/
theorem executeT32_of_itCond_none (len : Nat) (f : Bool) (d n m : Reg) (shift : SRType) (amount : Nat) (s : State)
    (h : s.itCond = none) : executeT32 len f d n m shift amount s = .refused .illFormedIT := by
  simp only [executeT32, h]

/-- With a condition, passing or failing, the T32 operation completes. -/
theorem isNext_executeT32 (len : Nat) (f : Bool) (d n m : Reg) (shift : SRType) (amount : Nat) (s : State)
    (cond : Cond) (h : s.itCond = some cond) : isNext (executeT32 len f d n m shift amount s) = true := by
  cases hc : condHolds cond s.pstate with
  | true =>
    rw [executeT32_pass _ _ _ _ _ _ _ _ _ h hc]
    rfl
  | false =>
    rw [executeT32_fail _ _ _ _ _ _ _ _ _ h hc]
    rfl

/-- A T2 instruction whose operands pass their checks is refused in an IT block whose condition is 1111. -/
theorem executeT2_of_itCond_none (word : Word) (f : Bool) (d n m : Reg) (shift : SRType) (amount : Nat) (s : State)
    (hd : d ≠ 15#4) (hn : n ≠ 15#4) (hm : m ≠ 15#4) (h : s.itCond = none) :
    executeT2 word f d n m false shift amount s = .refused .illFormedIT := by
  rw [executeT2_checked _ _ _ _ _ _ _ _ hd hn hm, executeT32_of_itCond_none _ _ _ _ _ _ _ _ h]

/-- Settles O46: the condition 1111 names no condition, and a nonzero IT state does not fit A32. -/
theorem condition1111AndItInA32AreRefused : Obligations.Condition1111AndItInA32AreRefused := by
  refine ⟨fun dn m s => ⟨?_, ?_⟩, ?_, ?_⟩
  · intro hb h
    exact executeT32_of_itCond_none _ _ _ _ _ _ _ _ (itCond_of_1111 s hb h)
  · intro hw
    obtain ⟨cond, hcond⟩ := itCond_of_wellFormed s hw
    exact isNext_executeT32 _ _ _ _ _ _ _ _ cond hcond
  · intro d n m shift amount s hd hn hm hb h
    have refused (word : Word) (f : Bool) (shift : SRType) (amount : Nat) :
        executeT2 word f d n m false shift amount s = .refused .illFormedIT :=
      executeT2_of_itCond_none word f d n m shift amount s hd hn hm (itCond_of_1111 s hb h)
    exact ⟨refused _ _ _ _, refused _ _ _ _, refused _ _ _ _, refused _ _ _ _⟩
  · intro s bytes ht hit hil hf
    exact step_of_misfit_it s bytes hf hil (by simp [State.itFitsSet, ht, hit])

end Sys2Proof.Machine
end

section
/-! SUPPORT. The wrap check of a fetch. -/

namespace Sys2Proof.Machine

/-- Bytes that IMEM holds are fetched. -/
theorem fetchBytes_of_readBytes (s : State) (addr count : Nat) (bs : List Byte)
    (h : Memory.readBytes s.imem addr count = .ok bs) : fetchBytes s addr count = .next bs := by
  simp only [fetchBytes, h]

/-- An A32 word after which the pc would reach 2^32. -/
theorem fetch_wraps_inA32 (s : State) (bs : List Byte) (ha : s.pcAligned = true) (ht : s.pstate.t = false)
    (hb : Memory.readBytes s.imem s.pc.toNat 4 = .ok bs) (hw : s.pcWraps 4 = true) :
    fetch s = .refused .pcWrap := by
  rw [fetch, if_pos ha, if_neg (by simp [ht]), fetchA32, fetchBytes_of_readBytes _ _ _ _ hb]
  exact if_pos hw

/-- A T32 instruction after which the pc would reach 2^32: the check follows its first halfword, whatever its length. -/
theorem fetch_wraps_inT32 (s : State) (b0 b1 : Byte) (ha : s.pcAligned = true) (ht : s.pstate.t = true)
    (hb : Memory.readBytes s.imem s.pc.toNat 2 = .ok [b0, b1])
    (hw : s.pcWraps (if isWide (half b0 b1) then 4 else 2) = true) : fetch s = .refused .pcWrap := by
  rw [fetch, if_pos ha, if_pos ht, fetchT32, fetchBytes_of_readBytes _ _ _ _ hb]
  cases hwide : isWide (half b0 b1) with
  | false =>
    have hwraps : s.pcWraps 2 = true := by simpa [hwide] using hw
    simp [startsWide, hwide, hwraps]
  | true =>
    have hwraps : s.pcWraps 4 = true := by simpa [hwide] using hw
    simp [startsWide, hwide, hwraps]

/-- The wrap check of an instruction of `len` bytes (10_state.md R28). -/
theorem pcWraps_iff (s : State) (len : Nat) : s.pcWraps len = true ↔ 2 ^ 32 ≤ s.pc.toNat + len :=
  decide_eq_true_iff

/-- Settles O49: the wrap check stands right after the bytes that fix the instruction's length. -/
theorem pcWrapIsRefused : Obligations.PcWrapIsRefused := by
  intro s b0 b1 b2 b3 ha h0 h1
  have hfirst := readBytes_two _ _ _ _ h0 h1
  refine ⟨fun ht h2 h3 hw => ?_, fun ht hwide hw => ?_, fun ht hwide hw => ?_, readReg_pc_a32 s⟩
  all_goals apply step_of_fetch_refused; rw [← pcWraps_iff] at hw
  · exact fetch_wraps_inA32 s _ ha ht (readBytes_four _ _ _ _ _ _ h0 h1 h2 h3) hw
  · exact fetch_wraps_inT32 s b0 b1 ha ht hfirst (by rwa [hwide])
  · exact fetch_wraps_inT32 s b0 b1 ha ht hfirst (by rwa [hwide])

end Sys2Proof.Machine
end

section
/-! SUPPORT. What a fetch answers: the alignment check, the bytes that are there, and the first one that is not. -/

namespace Sys2Proof.Machine

/-! ### The alignment check -/

/-- An A32 pc is aligned where it is a multiple of 4 (20_memory.md R55). -/
theorem pcAligned_iff_inA32 (s : State) (ht : s.pstate.t = false) : s.pcAligned = true ↔ s.pc.toNat % 4 = 0 := by
  simp only [State.pcAligned, ht, Bool.false_eq_true, if_false, getLsbD_zero_eq, getLsbD_one_eq, Bool.and_eq_true,
    Bool.not_eq_true', decide_eq_false_iff_not]
  omega

/-- A T32 pc is aligned where it is even (20_memory.md R55). -/
theorem pcAligned_iff_inT32 (s : State) (ht : s.pstate.t = true) : s.pcAligned = true ↔ s.pc.toNat % 2 = 0 := by
  simp only [State.pcAligned, ht, if_true, getLsbD_zero_eq, Bool.not_eq_true', decide_eq_false_iff_not]
  omega

/-- A step at a misaligned pc ends before any byte is read. -/
theorem step_of_not_pcAligned (s : State) (ha : ¬ s.pcAligned = true) : step s = .fault (.fetch s.pc) :=
  step_of_fetch_fault s _ (if_neg ha)

/-- Settles O47: the alignment check comes first in a fetch. -/
theorem misalignedFetchFaults : Obligations.MisalignedFetchFaults := by
  intro s
  refine ⟨fun ht h => ?_, fun ht h => ?_⟩
  · exact step_of_not_pcAligned s (mt (pcAligned_iff_inA32 s ht).mp h)
  · exact step_of_not_pcAligned s (mt (pcAligned_iff_inT32 s ht).mp h)

/-- An aligned fetch in A32. -/
theorem fetch_inA32 (s : State) (ha : s.pcAligned = true) (ht : s.pstate.t = false) : fetch s = fetchA32 s := by
  simp [fetch, ha, ht]

/-- An aligned fetch in T32. -/
theorem fetch_inT32 (s : State) (ha : s.pcAligned = true) (ht : s.pstate.t = true) : fetch s = fetchT32 s := by
  simp [fetch, ha, ht]

/-- Below the wrap the check lets the fetch go on (10_state.md R28). -/
theorem pcWraps_of_lt (s : State) (len : Nat) (h : s.pc.toNat + len < 2 ^ 32) : s.pcWraps len = false :=
  decide_eq_false h.not_ge

/-! ### Bytes that are there -/

/-- An A32 fetch below the wrap answers its four bytes. -/
theorem fetchA32_next (s : State) (bs : List Byte) (hb : Memory.readBytes s.imem s.pc.toNat 4 = .ok bs)
    (hw : s.pc.toNat + 4 < 2 ^ 32) : fetchA32 s = .next bs := by
  simp [fetchA32, fetchBytes_of_readBytes _ _ _ _ hb, pcWraps_of_lt s 4 hw]

/-- A T32 fetch whose first halfword is a whole instruction answers its two bytes. -/
theorem fetchT32_narrow (s : State) (b0 b1 : Byte) (hb : Memory.readBytes s.imem s.pc.toNat 2 = .ok [b0, b1])
    (hwide : isWide (half b0 b1) = false) (hw : s.pc.toNat + 2 < 2 ^ 32) : fetchT32 s = .next [b0, b1] := by
  simp [fetchT32, fetchBytes_of_readBytes _ _ _ _ hb, startsWide, hwide, pcWraps_of_lt s 2 hw]

/-- A T32 fetch whose first halfword begins a 32-bit instruction goes on to the second one. -/
theorem fetchT32_wide (s : State) (b0 b1 : Byte) (hb : Memory.readBytes s.imem s.pc.toNat 2 = .ok [b0, b1])
    (hwide : isWide (half b0 b1) = true) (hw : s.pc.toNat + 4 < 2 ^ 32) :
    fetchT32 s = fetchSecondHalf s [b0, b1] := by
  simp [fetchT32, fetchBytes_of_readBytes _ _ _ _ hb, startsWide, hwide, pcWraps_of_lt s 4 hw]

/-- The second halfword's bytes follow the first's. -/
theorem fetchSecondHalf_next (s : State) (bs bs' : List Byte)
    (hb : Memory.readBytes s.imem (s.pc.toNat + 2) 2 = .ok bs') : fetchSecondHalf s bs = .next (bs ++ bs') := by
  simp [fetchSecondHalf, fetchBytes_of_readBytes _ _ _ _ hb]

/-! ### A byte that is not there -/

/-- Bytes of which IMEM holds none at the offset `k` and no earlier one is missing: the fault is at that byte. -/
theorem fetchBytes_fault (s : State) (addr count k : Nat) (hk : k < count)
    (hj : ∀ j, j < k → Memory.read s.imem (addr + j) ≠ none) (hn : Memory.read s.imem (addr + k) = none) :
    fetchBytes s addr count = .fault (.fetch (BitVec.ofNat 32 (addr + k))) := by
  simp [fetchBytes, readBytes_error _ _ _ _ hk hj hn]

theorem fetchA32_fault (s : State) (f : Fault) (h : fetchBytes s s.pc.toNat 4 = .fault f) :
    fetchA32 s = .fault f := by
  simp [fetchA32, h]

theorem fetchT32_fault (s : State) (f : Fault) (h : fetchBytes s s.pc.toNat 2 = .fault f) :
    fetchT32 s = .fault f := by
  simp [fetchT32, h]

theorem fetchSecondHalf_fault (s : State) (bs : List Byte) (f : Fault)
    (h : fetchBytes s (s.pc.toNat + 2) 2 = .fault f) : fetchSecondHalf s bs = .fault f := by
  simp [fetchSecondHalf, h]

/-- The second halfword's first missing byte, by its offset from the pc, the first halfword being there. -/
theorem fetchSecondHalf_missing (s : State) (bs : List Byte) (k : Nat) (h2 : 2 ≤ k) (h4 : k < 4)
    (hj : ∀ j, j < k → Memory.read s.imem (s.pc.toNat + j) ≠ none)
    (hn : Memory.read s.imem (s.pc.toNat + k) = none) :
    fetchSecondHalf s bs = .fault (.fetch (BitVec.ofNat 32 (s.pc.toNat + k))) := by
  obtain ⟨i, rfl⟩ := Nat.exists_eq_add_of_le h2
  rw [← Nat.add_assoc] at hn ⊢
  refine fetchSecondHalf_fault s bs _ (fetchBytes_fault s _ 2 i (by omega) (fun j h => ?_) hn)
  rw [Nat.add_assoc]
  exact hj _ (by omega)

/-- Settles O48: each part of a fetch reads its bytes in order and stops at the first one missing. -/
theorem unmappedFetchFaults : Obligations.UnmappedFetchFaults := by
  intro s k ha hj hn
  have haddr : BitVec.ofNat 32 (s.pc.toNat + k) = s.pc + BitVec.ofNat 32 k := by simp [BitVec.ofNat_add]
  rw [← haddr]
  refine ⟨fun ht hk => ?_, fun ht hk => ?_, fun b0 b1 ht h0 h1 hwide hw hk => ?_⟩ <;> apply step_of_fetch_fault
  · rw [fetch_inA32 s ha ht]
    exact fetchA32_fault s _ (fetchBytes_fault s _ 4 k hk hj hn)
  · rw [fetch_inT32 s ha ht]
    exact fetchT32_fault s _ (fetchBytes_fault s _ 2 k hk hj hn)
  · have h2 : 2 ≤ k := by
      by_contra hlt
      interval_cases k
      · simp [h0] at hn
      · simp [h1] at hn
    rw [fetch_inT32 s ha ht, fetchT32_wide s b0 b1 (readBytes_two _ _ _ _ h0 h1) hwide hw]
    exact fetchSecondHalf_missing s _ k h2 hk hj hn

end Sys2Proof.Machine
end

section
/-! SUPPORT. The byte order of what is fetched. -/

namespace Sys2Proof.Machine

/-- The bytes of two bytes' halfword. -/
theorem halfBytes_half (b0 b1 : Byte) : halfBytes (half b0 b1) = [b0, b1] := by
  rw [halfBytes, half, BitVec.extractLsb'_append_eq_right, BitVec.extractLsb'_append_eq_left]

/-- The bytes of four bytes' A32 word. -/
theorem bytesA32_wordA32 (b0 b1 b2 b3 : Byte) : bytesA32 (wordA32 b0 b1 b2 b3) = [b0, b1, b2, b3] := by
  rw [bytesA32, wordA32, BitVec.extractLsb'_append_eq_right, BitVec.extractLsb'_append_eq_left, halfBytes_half,
    halfBytes_half]
  rfl

/-- The fields of an A32 word are its bytes: the low halfword's, then the high one's (20_memory.md R52). -/
theorem wordA32_fields (b0 b1 b2 b3 : Byte) :
    (wordA32 b0 b1 b2 b3).extractLsb' 0 8 = b0 ∧ (wordA32 b0 b1 b2 b3).extractLsb' 8 8 = b1 ∧
      (wordA32 b0 b1 b2 b3).extractLsb' 16 8 = b2 ∧ (wordA32 b0 b1 b2 b3).extractLsb' 24 8 = b3 := by
  have low (start : Nat) (h : start + 8 ≤ 16) :
      (wordA32 b0 b1 b2 b3).extractLsb' start 8 = (half b0 b1).extractLsb' start 8 :=
    BitVec.extractLsb'_append_eq_of_add_le h
  have high (start : Nat) (h : 16 ≤ start) :
      (wordA32 b0 b1 b2 b3).extractLsb' start 8 = (half b2 b3).extractLsb' (start - 16) 8 :=
    BitVec.extractLsb'_append_eq_of_le h
  refine ⟨(low 0 (by decide)).trans ?_, (low 8 (by decide)).trans ?_, (high 16 (by decide)).trans ?_,
    (high 24 (by decide)).trans ?_⟩
  · exact BitVec.extractLsb'_append_eq_right
  · exact BitVec.extractLsb'_append_eq_left
  · exact BitVec.extractLsb'_append_eq_right
  · exact BitVec.extractLsb'_append_eq_left

/-- Settles O50: the word's fields are its bytes, and the fetch answers those bytes. -/
theorem a32FetchIsLittleEndian : Obligations.A32FetchIsLittleEndian := by
  intro b0 b1 b2 b3
  obtain ⟨h0, h1, h2, h3⟩ := wordA32_fields b0 b1 b2 b3
  refine ⟨h0, h1, h2, h3, fun s ht ha hw m0 m1 m2 m3 => ?_⟩
  rw [bytesA32_wordA32, fetch_inA32 s ha ht]
  exact fetchA32_next s _ (readBytes_four _ _ _ _ _ _ m0 m1 m2 m3) hw

/-- Appended bit vectors as a number. -/
theorem toNat_append_eq_add {m n : Nat} (x : BitVec m) (y : BitVec n) :
    (x ++ y).toNat = x.toNat * 2 ^ n + y.toNat := by
  rw [BitVec.toNat_append, ← Nat.shiftLeft_add_eq_or_of_lt y.isLt, Nat.shiftLeft_eq]

/-- A halfword as a number: its first byte is the low one. -/
theorem half_toNat (b0 b1 : Byte) : (half b0 b1).toNat = b1.toNat * 256 + b0.toNat :=
  toNat_append_eq_add b1 b0

/-- The top five bits of a 32-bit instruction's first halfword are 11101, 11110 or 11111. -/
theorem isWide_iff (h : Half) :
    isWide h = true ↔ h.toNat / 2048 = 29 ∨ h.toNat / 2048 = 30 ∨ h.toNat / 2048 = 31 := by
  have := h.isLt
  have htop : (h.extractLsb' 11 5).toNat = h.toNat / 2048 := by
    rw [BitVec.extractLsb'_toNat, Nat.shiftRight_eq_div_pow]
    omega
  simp [isWide, ← BitVec.toNat_inj, htop, or_assoc]

/-- Settles O51: the length by the top five bits of the first halfword, which lie in its second byte. -/
theorem t32FetchIsByHalfwords : Obligations.T32FetchIsByHalfwords := by
  intro b0 b1 b2 b3
  have htop : (half b0 b1).toNat / 2048 = b1.toNat / 8 := by
    have := b0.isLt
    rw [half_toNat]
    omega
  refine ⟨htop ▸ isWide_iff (half b0 b1), half_toNat b0 b1, toNat_append_eq_add _ _, fun s ht ha m0 m1 => ?_⟩
  have hfirst := readBytes_two _ _ _ _ m0 m1
  rw [fetch_inT32 s ha ht]
  refine ⟨fun hwide hw => fetchT32_narrow s b0 b1 hfirst hwide hw, fun hwide hw m2 m3 => ?_⟩
  rw [fetchT32_wide s b0 b1 hfirst hwide hw]
  exact fetchSecondHalf_next s _ _ (readBytes_two _ _ _ _ m2 m3)

end Sys2Proof.Machine
end

section
/-! SUPPORT. A word that decodes, both ways: what the decoder gives on an encoding, and the encoding of what it
gives. -/

namespace Sys2Proof

/-! ### The decoders, by format -/

/-- A word of the A1 format with a condition and the fields of RRX (30_encoding.md R74). -/
theorem decodeA1_of_rrx (w : Word) (c : Cond) (hw : w &&& 0x0FE00010#32 = 0x00000000#32)
    (hc : Cond.ofBits (w.extractLsb' 28 4) = some c) (hz : w.extractLsb' 7 5 = 0#5 ∧ w.extractLsb' 5 2 = 0b11#2) :
    decodeA1 w = some ((if w.getLsbD 20 then Instr.andsRA1Rrx else Instr.andRA1Rrx) c (w.extractLsb' 12 4)
      (w.extractLsb' 16 4) (w.extractLsb' 0 4)) := by
  rw [decodeA1, if_pos hw]
  simp only [hc]
  rw [if_pos hz]
  cases w.getLsbD 20 <;> rfl

/-- A word of the A1 format with a condition and any other shift (30_encoding.md R74, R78). -/
theorem decodeA1_of_shift (w : Word) (c : Cond) (hw : w &&& 0x0FE00010#32 = 0x00000000#32)
    (hc : Cond.ofBits (w.extractLsb' 28 4) = some c)
    (hz : ¬ (w.extractLsb' 7 5 = 0#5 ∧ w.extractLsb' 5 2 = 0b11#2)) :
    decodeA1 w = some ((if w.getLsbD 20 then Instr.andsRA1 else Instr.andRA1) c (w.extractLsb' 12 4)
      (w.extractLsb' 16 4) (w.extractLsb' 0 4) (decodeImmShift (w.extractLsb' 5 2) (w.extractLsb' 7 5)).1
      (decodeImmShift (w.extractLsb' 5 2) (w.extractLsb' 7 5)).2) := by
  rw [decodeA1, if_pos hw]
  simp only [hc]
  rw [if_neg hz]
  cases w.getLsbD 20 <;> rfl

/-- Class T1 has one format, all of whose operands are instructions (30_encoding.md R72). -/
theorem decodeT1_eq_some_iff (h : Half) (i : Instr) :
    decodeT1 h = some i ↔ h &&& 0xFFC0#16 = 0x4000#16 ∧ i = .andRT1 (h.extractLsb' 0 3) (h.extractLsb' 3 3) := by
  simp [decodeT1, eq_comm]

/-- A value of the T2 format that is not TST with the fields of RRX (30_encoding.md R75). -/
theorem decodeT2_of_rrx (w : Word) (hw : w &&& 0xFFE00000#32 = 0xEA000000#32)
    (ht : ¬ (w.extractLsb' 8 4 = 15#4 ∧ w.getLsbD 20 = true))
    (hz : w.extractLsb' 12 3 = 0#3 ∧ w.extractLsb' 6 2 = 0#2 ∧ w.extractLsb' 4 2 = 0b11#2) :
    decodeT2 w = some ((if w.getLsbD 20 then Instr.andsRT2Rrx else Instr.andRT2Rrx) (w.extractLsb' 8 4)
      (w.extractLsb' 16 4) (w.extractLsb' 0 4) (w.getLsbD 15)) := by
  rw [decodeT2, if_pos hw]
  dsimp only
  rw [if_neg ht, if_pos hz]
  cases w.getLsbD 20 <;> rfl

/-- A value of the T2 format that is not TST with any other shift (30_encoding.md R75, R78). -/
theorem decodeT2_of_shift (w : Word) (hw : w &&& 0xFFE00000#32 = 0xEA000000#32)
    (ht : ¬ (w.extractLsb' 8 4 = 15#4 ∧ w.getLsbD 20 = true))
    (hz : ¬ (w.extractLsb' 12 3 = 0#3 ∧ w.extractLsb' 6 2 = 0#2 ∧ w.extractLsb' 4 2 = 0b11#2)) :
    decodeT2 w = some ((if w.getLsbD 20 then Instr.andsRT2 else Instr.andRT2) (w.extractLsb' 8 4) (w.extractLsb' 16 4)
      (w.extractLsb' 0 4) (w.getLsbD 15)
      (decodeImmShift (w.extractLsb' 4 2) (w.extractLsb' 12 3 ++ w.extractLsb' 6 2)).1
      (decodeImmShift (w.extractLsb' 4 2) (w.extractLsb' 12 3 ++ w.extractLsb' 6 2)).2) := by
  rw [decodeT2, if_pos hw]
  dsimp only
  rw [if_neg ht, if_neg hz]
  cases w.getLsbD 20 <;> rfl

/-! ### Decode of encode -/

theorem decodeA1_encodeA1_rrx (c : Cond) (f : Bool) (d n m : Reg) :
    decodeA1 (encodeA1 c f d n m .rrx 0#5) =
      some ((if f then Instr.andsRA1Rrx else Instr.andRA1Rrx) c d n m) := by
  obtain ⟨hc, hn, hd, ha, hs, hm, hf, hw⟩ := encodeA1_fields c f d n m .rrx 0#5
  rw [decodeA1_of_rrx _ c hw (hc ▸ ofBits_toBits c) ⟨ha, hs⟩, hf, hd, hn, hm]

theorem decodeA1_encodeA1_shift (c : Cond) (f : Bool) (d n m : Reg) (shift : SRType) (amount : Nat)
    (hv : shift.validAmount amount = true) :
    decodeA1 (encodeA1 c f d n m shift (amountField amount)) =
      some ((if f then Instr.andsRA1 else Instr.andRA1) c d n m shift amount) := by
  obtain ⟨hc, hn, hd, ha, hs, hm, hf, hw⟩ := encodeA1_fields c f d n m shift (amountField amount)
  obtain ⟨hsh, hz⟩ := decodeImmShift_fields shift amount hv
  rw [decodeA1_of_shift _ c hw (hc ▸ ofBits_toBits c) (by rwa [ha, hs]), hf, hd, hn, hm, hs, ha, hsh]

theorem decodeT2_encodeT2_rrx (f : Bool) (d n m : Reg) (sbz : Bool) (ht : ¬ (d = 15#4 ∧ f = true)) :
    decodeT2 (encodeT2 f d n m sbz .rrx 0#5) =
      some ((if f then Instr.andsRT2Rrx else Instr.andRT2Rrx) d n m sbz) := by
  obtain ⟨hn, hd, ha, hs, hm, hf, hb, hw⟩ := encodeT2_fields f d n m sbz .rrx 0#5
  obtain ⟨h3, h2⟩ := (amountParts_zero _ _).mp ha
  rw [decodeT2_of_rrx _ hw (by rwa [hd, hf]) ⟨h3, h2, hs⟩, hf, hd, hn, hm, hb]

theorem decodeT2_encodeT2_shift (f : Bool) (d n m : Reg) (sbz : Bool) (shift : SRType) (amount : Nat)
    (ht : ¬ (d = 15#4 ∧ f = true)) (hv : shift.validAmount amount = true) :
    decodeT2 (encodeT2 f d n m sbz shift (amountField amount)) =
      some ((if f then Instr.andsRT2 else Instr.andRT2) d n m sbz shift amount) := by
  obtain ⟨hn, hd, ha, hs, hm, hf, hb, hw⟩ := encodeT2_fields f d n m sbz shift (amountField amount)
  obtain ⟨hsh, hz⟩ := decodeImmShift_fields shift amount hv
  rw [decodeT2_of_shift _ hw (by rwa [hd, hf]) (by rwa [← and_assoc, ← amountParts_zero, ha, hs]), hf, hd, hn, hm,
    hb, hs, ha, hsh]

/-- The fields of a T1 halfword are what it was encoded from. -/
theorem encodeT1_fields (dn m : LowReg) :
    (encodeT1 dn m).extractLsb' 0 3 = dn ∧ (encodeT1 dn m).extractLsb' 3 3 = m ∧
      encodeT1 dn m &&& 0xFFC0#16 = 0x4000#16 := by
  revert dn m
  decide

/-- An encoded T1 halfword is a whole instruction. -/
theorem encodeT1_isWide (dn m : LowReg) : isWide (encodeT1 dn m) = false := by
  revert dn m
  decide

theorem decodeT1_encodeT1 (dn m : LowReg) : decodeT1 (encodeT1 dn m) = some (.andRT1 dn m) := by
  obtain ⟨hd, hm, hw⟩ := encodeT1_fields dn m
  rw [decodeT1_eq_some_iff, hd, hm]
  exact ⟨hw, rfl⟩

/-- The bytes of an A1 word that decodes give its instruction. -/
theorem decode_bytesA32_of_some {w : Word} {i : Instr} (h : decodeA1 w = some i) (rest : List Byte) :
    decode false (bytesA32 w ++ rest) = .instr i rest := by
  rw [decode_bytesA32, h, Decoded.ofOption]

/-- The bytes of an encoded T2 value that decodes give its instruction. -/
theorem decode_bytesT32_of_some {f : Bool} {d n m : Reg} {sbz : Bool} {shift : SRType} {a : BitVec 5} {i : Instr}
    (h : decodeT2 (encodeT2 f d n m sbz shift a) = some i) (rest : List Byte) :
    decode true (bytesT32 (encodeT2 f d n m sbz shift a) ++ rest) = .instr i rest := by
  rw [decode_bytesT32 _ _ (encodeT2_isWide f d n m sbz shift a), h, Decoded.ofOption]

/-- The bytes of an encoded T1 halfword give its instruction. -/
theorem decode_halfBytes_encodeT1 (dn m : LowReg) (rest : List Byte) :
    decode true (halfBytes (encodeT1 dn m) ++ rest) = .instr (.andRT1 dn m) rest := by
  rw [decode_halfBytes _ _ (encodeT1_isWide dn m), decodeT1_encodeT1, Decoded.ofOption]

/-- The bytes of a T1 instruction are those of its halfword. -/
theorem encode_andRT1 (dn m : LowReg) : encode (.andRT1 dn m) = halfBytes (encodeT1 dn m) :=
  congrArg halfBytes (BitVec.setWidth_setWidth_of_le (encodeT1 dn m) (by decide : 16 ≤ 32))

/-- Settles O3: each class decodes the fields that it encodes; T2 needs that the term is not TST's. -/
theorem decodeOfEncodeIsTheInstruction : Obligations.DecodeOfEncodeIsTheInstruction := by
  intro i rest hwf
  cases i with
  | andRA1Rrx c d n m => exact decode_bytesA32_of_some (decodeA1_encodeA1_rrx c false d n m) rest
  | andRA1 c d n m shift amount =>
    exact decode_bytesA32_of_some (decodeA1_encodeA1_shift c false d n m shift amount hwf) rest
  | andsRA1Rrx c d n m => exact decode_bytesA32_of_some (decodeA1_encodeA1_rrx c true d n m) rest
  | andsRA1 c d n m shift amount =>
    exact decode_bytesA32_of_some (decodeA1_encodeA1_shift c true d n m shift amount hwf) rest
  | andRT1 dn m =>
    rw [encode_andRT1]
    exact decode_halfBytes_encodeT1 dn m rest
  | andRT2Rrx d n m sbz => exact decode_bytesT32_of_some (decodeT2_encodeT2_rrx false d n m sbz (by simp)) rest
  | andRT2 d n m sbz shift amount =>
    exact decode_bytesT32_of_some (decodeT2_encodeT2_shift false d n m sbz shift amount (by simp) hwf) rest
  | andsRT2Rrx d n m sbz =>
    have hd : d ≠ 15#4 := bne_iff_ne.mp hwf
    exact decode_bytesT32_of_some (decodeT2_encodeT2_rrx true d n m sbz (by simp [hd])) rest
  | andsRT2 d n m sbz shift amount =>
    obtain ⟨hd, hv⟩ : d ≠ 15#4 ∧ shift.validAmount amount = true := by simpa [Instr.wellFormed] using hwf
    exact decode_bytesT32_of_some (decodeT2_encodeT2_shift true d n m sbz shift amount (by simp [hd]) hv) rest

/-! ### Encode of decode -/

/-- The word of an A1 instruction with the fields of RRX, by its flag. -/
theorem encodeWord_a1Rrx (c : Cond) (f : Bool) (d n m : Reg) :
    encodeWord ((if f then Instr.andsRA1Rrx else Instr.andRA1Rrx) c d n m) = encodeA1 c f d n m .rrx 0#5 := by
  cases f <;> rfl

/-- The word of an A1 instruction with any other shift, by its flag. -/
theorem encodeWord_a1Shift (c : Cond) (f : Bool) (d n m : Reg) (shift : SRType) (amount : Nat) :
    encodeWord ((if f then Instr.andsRA1 else Instr.andRA1) c d n m shift amount) =
      encodeA1 c f d n m shift (amountField amount) := by
  cases f <;> rfl

/-- The value of a T2 instruction with the fields of RRX, by its flag. -/
theorem encodeWord_t2Rrx (f : Bool) (d n m : Reg) (sbz : Bool) :
    encodeWord ((if f then Instr.andsRT2Rrx else Instr.andRT2Rrx) d n m sbz) = encodeT2 f d n m sbz .rrx 0#5 := by
  cases f <;> rfl

/-- The value of a T2 instruction with any other shift, by its flag. -/
theorem encodeWord_t2Shift (f : Bool) (d n m : Reg) (sbz : Bool) (shift : SRType) (amount : Nat) :
    encodeWord ((if f then Instr.andsRT2 else Instr.andRT2) d n m sbz shift amount) =
      encodeT2 f d n m sbz shift (amountField amount) := by
  cases f <;> rfl

theorem encodeWord_of_decodeA1 (w : Word) (i : Instr) (h : decodeA1 w = some i) : encodeWord i = w := by
  obtain ⟨hw, c, hc, ⟨ha, hs, rfl⟩ | ⟨hz, rfl⟩⟩ := decodeA1_some w i h
  · rw [encodeWord_a1Rrx, ← ha]
    exact encodeA1_of_fields w c hw (toBits_of_ofBits _ c hc) .rrx hs.symm
  · obtain ⟨-, hs, ha⟩ := decodeImmShift_valid _ _ hz
    rw [encodeWord_a1Shift, ha]
    exact encodeA1_of_fields w c hw (toBits_of_ofBits _ c hc) _ hs

theorem encodeWord_of_decodeT2 (w : Word) (i : Instr) (h : decodeT2 w = some i) : encodeWord i = w := by
  obtain ⟨hw, -, ⟨h3, h2, hs, rfl⟩ | ⟨hz, rfl⟩⟩ := decodeT2_some w i h
  · rw [encodeWord_t2Rrx, ← (amountParts_zero _ _).mpr ⟨h3, h2⟩]
    exact encodeT2_of_fields w hw .rrx hs.symm
  · rw [← and_assoc, ← amountParts_zero] at hz
    obtain ⟨-, hs, ha⟩ := decodeImmShift_valid _ _ hz
    rw [encodeWord_t2Shift, ha]
    exact encodeT2_of_fields w hw _ hs

/-- A halfword of the T1 format is the encoding of its own fields. -/
theorem encodeT1_of_fields (h : Half) (hw : h &&& 0xFFC0#16 = 0x4000#16) :
    encodeT1 (h.extractLsb' 0 3) (h.extractLsb' 3 3) = h := by
  apply BitVec.eq_of_getLsbD_eq
  intro i hi
  have hb := congrArg (fun v => v.getLsbD i) hw
  simp only [BitVec.getLsbD_and] at hb
  simp only [encodeT1, BitVec.getLsbD_append, BitVec.getLsbD_extractLsb']
  interval_cases i <;> simp_all

theorem encodeWord_of_decodeT1 (h : Half) (i : Instr) (hd : decodeT1 h = some i) : encodeWord i = h.setWidth 32 := by
  obtain ⟨hw, rfl⟩ := (decodeT1_eq_some_iff h i).mp hd
  exact congrArg (BitVec.setWidth 32) (encodeT1_of_fields h hw)

/-- Settles O4: a word that decodes is of its class's format, whose word its fields give back. -/
theorem encodeOfDecodeIsTheWord : Obligations.EncodeOfDecodeIsTheWord :=
  ⟨encodeWord_of_decodeA1, encodeWord_of_decodeT1, encodeWord_of_decodeT2⟩

end Sys2Proof
end

section
/-! SUPPORT. The opcode table by fields: a mask compares the fields that it covers, one by one. -/

namespace Sys2Proof

/-! ### Masks and fields -/

/-- A field's value at its place in a word. -/
def placedField {len : Nat} (start : Nat) (v : BitVec len) : Word :=
  v.setWidth 32 <<< start

/-- Masking a whole field compares the field. -/
theorem and_placedField_eq_iff {len : Nat} (w : Word) (start : Nat) (v : BitVec len) (h : start + len ≤ 32) :
    w &&& placedField start (BitVec.allOnes len) = placedField start v ↔ w.extractLsb' start len = v := by
  simp only [placedField, BitVec.eq_of_getLsbD_eq_iff, BitVec.getLsbD_and, BitVec.getLsbD_shiftLeft,
    BitVec.getLsbD_setWidth, BitVec.getLsbD_allOnes, BitVec.getLsbD_extractLsb']
  constructor
  · intro hw i hi
    have := hw (start + i) (by omega)
    simpa [hi, show start + i < 32 by omega, show i < 32 by omega] using this
  · intro hv i hi
    by_cases hs : i < start
    · simp [hs]
    · by_cases hl : i - start < len
      · have := hv (i - start) hl
        simpa [hi, hs, hl, show i - start < 32 by omega, show start + (i - start) = i by omega] using this
      · simp [hl, BitVec.getLsbD_of_ge v (i - start) (by omega)]

/-- What a mask of two disjoint parts compares, its first part compares. -/
theorem and_left_of_and_or {w m₁ m₂ v₁ v₂ : Word} (hm : m₁ &&& m₂ = 0#32) (h₁ : v₁ &&& m₁ = v₁)
    (h₂ : v₂ &&& m₂ = v₂) (h : w &&& (m₁ ||| m₂) = v₁ ||| v₂) : w &&& m₁ = v₁ := by
  have h0 : v₂ &&& m₁ = 0#32 := by
    rw [← h₂, BitVec.and_assoc, BitVec.and_comm m₂, hm, BitVec.and_zero]
  calc w &&& m₁ = (w &&& (m₁ ||| m₂)) &&& m₁ := by
        rw [BitVec.and_assoc, BitVec.and_or_distrib_right, BitVec.and_self, BitVec.and_comm m₂, hm, BitVec.or_zero]
    _ = v₁ := by rw [h, BitVec.and_or_distrib_right, h₁, h0, BitVec.or_zero]

/-- A mask of two disjoint parts compares each part. -/
theorem and_or_eq_or_iff {w m₁ m₂ v₁ v₂ : Word} (hm : m₁ &&& m₂ = 0#32) (h₁ : v₁ &&& m₁ = v₁)
    (h₂ : v₂ &&& m₂ = v₂) : w &&& (m₁ ||| m₂) = v₁ ||| v₂ ↔ w &&& m₁ = v₁ ∧ w &&& m₂ = v₂ := by
  refine ⟨fun h => ⟨and_left_of_and_or hm h₁ h₂ h, and_left_of_and_or (m₂ := m₁) (v₂ := v₁) ?_ h₂ h₁ ?_⟩, ?_⟩
  · rwa [BitVec.and_comm]
  · rwa [BitVec.or_comm m₂, BitVec.or_comm v₂]
  · rintro ⟨rfl, rfl⟩
    exact BitVec.and_or_distrib_left

/-- Bit 20, `S` in both 32-bit formats. -/
theorem and_bit20_eq_iff (w : Word) (f : Bool) :
    w &&& 0x00100000#32 = placedField 20 (BitVec.ofBool f) ↔ w.getLsbD 20 = f := by
  have hbit : w.extractLsb' 20 1 = BitVec.ofBool (w.getLsbD 20) := by
    apply BitVec.eq_of_getLsbD_eq
    intro i hi
    interval_cases i
    simp
  have hinj : BitVec.ofBool (w.getLsbD 20) = BitVec.ofBool f ↔ w.getLsbD 20 = f := by
    cases w.getLsbD 20 <;> cases f <;> decide
  rw [← hinj, ← hbit]
  exact and_placedField_eq_iff w 20 (BitVec.ofBool f) (by decide)

theorem and_cond1111_eq_iff (w : Word) :
    w &&& 0xF0000000#32 = 0xF0000000#32 ↔ w.extractLsb' 28 4 = 15#4 :=
  and_placedField_eq_iff w 28 15#4 (by decide)

/-- The A1 amount and shift type of RRX. -/
theorem and_rrxA1_eq_iff (w : Word) :
    w &&& 0x00000FE0#32 = 0x00000060#32 ↔ w.extractLsb' 7 5 = 0#5 ∧ w.extractLsb' 5 2 = 0b11#2 := by
  rw [← and_placedField_eq_iff w 7 0#5 (by decide), ← and_placedField_eq_iff w 5 0b11#2 (by decide),
    ← and_or_eq_or_iff]
  · rfl
  all_goals decide

/-- The two parts of the T2 amount and the shift type of RRX. -/
theorem and_rrxT2_eq_iff (w : Word) :
    w &&& 0x000070F0#32 = 0x00000030#32 ↔
      w.extractLsb' 12 3 = 0#3 ∧ w.extractLsb' 6 2 = 0#2 ∧ w.extractLsb' 4 2 = 0b11#2 := by
  rw [← and_placedField_eq_iff w 12 0#3 (by decide), ← and_placedField_eq_iff w 6 0#2 (by decide),
    ← and_placedField_eq_iff w 4 0b11#2 (by decide), ← and_or_eq_or_iff, ← and_or_eq_or_iff]
  · rfl
  all_goals decide

theorem and_rd1111T2_eq_iff (w : Word) : w &&& 0x00000F00#32 = 0x00000F00#32 ↔ w.extractLsb' 8 4 = 15#4 :=
  and_placedField_eq_iff w 8 15#4 (by decide)

/-- The A1 format with bit 20. -/
theorem and_formatA1_eq_iff (w : Word) (f : Bool) :
    w &&& 0x0FF00010#32 = placedField 20 (BitVec.ofBool f) ↔
      w &&& 0x0FE00010#32 = 0x00000000#32 ∧ w.getLsbD 20 = f := by
  rw [← and_bit20_eq_iff, ← and_or_eq_or_iff (by decide) (by decide) (by cases f <;> decide), BitVec.zero_or]
  rfl

/-- The T2 format with bit 20. -/
theorem and_formatT2_eq_iff (w : Word) (f : Bool) :
    w &&& 0xFFF00000#32 = 0xEA000000#32 ||| placedField 20 (BitVec.ofBool f) ↔
      w &&& 0xFFE00000#32 = 0xEA000000#32 ∧ w.getLsbD 20 = f := by
  rw [← and_bit20_eq_iff, ← and_or_eq_or_iff (by decide) (by decide) (by cases f <;> decide)]
  rfl

/-! ### The rows by fields -/

/-- A row holds of a word that meets its mask and none of its exclusions. -/
theorem OpcodeRow.holds_iff (r : OpcodeRow) (w : Word) :
    r.holds w = true ↔ w &&& r.mask = r.value ∧ ∀ p ∈ r.exclusions, w &&& p.1 ≠ p.2 := by
  simp [OpcodeRow.holds]

/-- `AND_r_A1_RRX` and `ANDS_r_A1_RRX` in the table. -/
theorem holds_a1Rrx_iff (w : Word) (f : Bool) (c : Cond) (d n m : Reg) :
    ((if f then Instr.andsRA1Rrx else Instr.andRA1Rrx) c d n m).row.holds w = true ↔
      (w &&& 0x0FE00010#32 = 0x00000000#32 ∧ w.getLsbD 20 = f) ∧
        (w.extractLsb' 7 5 = 0#5 ∧ w.extractLsb' 5 2 = 0b11#2) ∧ w.extractLsb' 28 4 ≠ 15#4 := by
  have hrow : ((if f then Instr.andsRA1Rrx else Instr.andRA1Rrx) c d n m).row =
      ⟨0x0FF00010#32 ||| 0x00000FE0#32, placedField 20 (BitVec.ofBool f) ||| 0x00000060#32,
        [(0xF0000000#32, 0xF0000000#32)]⟩ := by
    cases f <;> rfl
  rw [hrow, OpcodeRow.holds_iff]
  dsimp only
  rw [and_or_eq_or_iff (by decide) (by cases f <;> decide) (by decide), and_formatA1_eq_iff, and_rrxA1_eq_iff]
  simp [and_cond1111_eq_iff, and_assoc]

/-- `AND_r_A1` and `ANDS_r_A1` in the table. -/
theorem holds_a1Shift_iff (w : Word) (f : Bool) (c : Cond) (d n m : Reg) (shift : SRType) (amount : Nat) :
    ((if f then Instr.andsRA1 else Instr.andRA1) c d n m shift amount).row.holds w = true ↔
      (w &&& 0x0FE00010#32 = 0x00000000#32 ∧ w.getLsbD 20 = f) ∧
        ¬ (w.extractLsb' 7 5 = 0#5 ∧ w.extractLsb' 5 2 = 0b11#2) ∧ w.extractLsb' 28 4 ≠ 15#4 := by
  have hrow : ((if f then Instr.andsRA1 else Instr.andRA1) c d n m shift amount).row =
      ⟨0x0FF00010#32, placedField 20 (BitVec.ofBool f),
        [(0xF0000000#32, 0xF0000000#32), (0x00000FE0#32, 0x00000060#32)]⟩ := by
    cases f <;> rfl
  rw [hrow, OpcodeRow.holds_iff]
  dsimp only
  rw [and_formatA1_eq_iff, ← and_rrxA1_eq_iff]
  simp [and_cond1111_eq_iff, and_comm]

/-- `AND_r_T1` in the table. -/
theorem holds_andRT1_iff (h : Half) (dn m : LowReg) :
    (Instr.andRT1 dn m).row.holds (h.setWidth 32) = true ↔ h &&& 0xFFC0#16 = 0x4000#16 := by
  have hrow : (Instr.andRT1 dn m).row = ⟨0x0000FFC0#32, (0x4000#16).setWidth 32, []⟩ := rfl
  have hmask : h.setWidth 32 &&& 0x0000FFC0#32 = (h &&& 0xFFC0#16).setWidth 32 := by
    rw [BitVec.setWidth_and]
    rfl
  have hinj : Function.Injective (BitVec.setWidth 32 : Half → Word) :=
    Function.LeftInverse.injective fun x => BitVec.setWidth_setWidth_of_le x (by decide : 16 ≤ 32)
  rw [hrow, OpcodeRow.holds_iff]
  dsimp only
  rw [hmask, hinj.eq_iff]
  simp

/-- `AND_r_T2_RRX` and `ANDS_r_T2_RRX` in the table. -/
theorem holds_t2Rrx_iff (w : Word) (f : Bool) (d n m : Reg) (sbz : Bool) :
    ((if f then Instr.andsRT2Rrx else Instr.andRT2Rrx) d n m sbz).row.holds w = true ↔
      (w &&& 0xFFE00000#32 = 0xEA000000#32 ∧ w.getLsbD 20 = f) ∧
        (w.extractLsb' 12 3 = 0#3 ∧ w.extractLsb' 6 2 = 0#2 ∧ w.extractLsb' 4 2 = 0b11#2) ∧
        ¬ (w.extractLsb' 8 4 = 15#4 ∧ f = true) := by
  have hrow : ((if f then Instr.andsRT2Rrx else Instr.andRT2Rrx) d n m sbz).row =
      ⟨0xFFF00000#32 ||| 0x000070F0#32, (0xEA000000#32 ||| placedField 20 (BitVec.ofBool f)) ||| 0x00000030#32,
        if f then [(0x00000F00#32, 0x00000F00#32)] else []⟩ := by
    cases f <;> rfl
  rw [hrow, OpcodeRow.holds_iff]
  dsimp only
  rw [and_or_eq_or_iff (by decide) (by cases f <;> decide) (by decide), and_formatT2_eq_iff, and_rrxT2_eq_iff,
    ← and_rd1111T2_eq_iff]
  cases f <;> simp [and_assoc]

/-- `AND_r_T2` and `ANDS_r_T2` in the table. -/
theorem holds_t2Shift_iff (w : Word) (f : Bool) (d n m : Reg) (sbz : Bool) (shift : SRType) (amount : Nat) :
    ((if f then Instr.andsRT2 else Instr.andRT2) d n m sbz shift amount).row.holds w = true ↔
      (w &&& 0xFFE00000#32 = 0xEA000000#32 ∧ w.getLsbD 20 = f) ∧
        ¬ (w.extractLsb' 12 3 = 0#3 ∧ w.extractLsb' 6 2 = 0#2 ∧ w.extractLsb' 4 2 = 0b11#2) ∧
        ¬ (w.extractLsb' 8 4 = 15#4 ∧ f = true) := by
  have hrow : ((if f then Instr.andsRT2 else Instr.andRT2) d n m sbz shift amount).row =
      ⟨0xFFF00000#32, 0xEA000000#32 ||| placedField 20 (BitVec.ofBool f),
        (0x000070F0#32, 0x00000030#32) :: if f then [(0x00000F00#32, 0x00000F00#32)] else []⟩ := by
    cases f <;> rfl
  rw [hrow, OpcodeRow.holds_iff]
  dsimp only
  rw [and_formatT2_eq_iff, ← and_rrxT2_eq_iff, ← and_rd1111T2_eq_iff]
  cases f <;> simp

/-! ### The decoder and the table -/

/-- Every condition field but 1111 names a condition (30_encoding.md R80). -/
theorem exists_ofBits_eq_some_iff (b : BitVec 4) : (∃ c, Cond.ofBits b = some c) ↔ b ≠ 15#4 := by
  rw [← Option.isSome_iff_exists]
  revert b
  decide

theorem row_holds_of_decodeA1 (w : Word) (i : Instr) (h : decodeA1 w = some i) : i.row.holds w = true := by
  obtain ⟨hw, c, hc, hi⟩ := decodeA1_some w i h
  have hcond := (exists_ofBits_eq_some_iff _).mp ⟨c, hc⟩
  obtain ⟨ha, hs, rfl⟩ | ⟨hz, rfl⟩ := hi
  · exact (holds_a1Rrx_iff w _ _ _ _ _).mpr ⟨⟨hw, rfl⟩, ⟨ha, hs⟩, hcond⟩
  · exact (holds_a1Shift_iff w _ _ _ _ _ _ _).mpr ⟨⟨hw, rfl⟩, hz, hcond⟩

theorem row_holds_of_decodeT2 (w : Word) (i : Instr) (h : decodeT2 w = some i) : i.row.holds w = true := by
  obtain ⟨hw, ht, ⟨h3, h2, hs, rfl⟩ | ⟨hz, rfl⟩⟩ := decodeT2_some w i h
  · exact (holds_t2Rrx_iff w _ _ _ _ _).mpr ⟨⟨hw, rfl⟩, ⟨h3, h2, hs⟩, ht⟩
  · exact (holds_t2Shift_iff w _ _ _ _ _ _ _).mpr ⟨⟨hw, rfl⟩, hz, ht⟩

/-- A word of `AND_r_A1_RRX`'s or `ANDS_r_A1_RRX`'s row decodes to that row's instruction. -/
theorem decodeA1_of_holds_rrx {w : Word} (f : Bool) {c : Cond} {d n m : Reg}
    (h : ((if f then Instr.andsRA1Rrx else Instr.andRA1Rrx) c d n m).row.holds w = true) :
    ∃ i, decodeA1 w = some i ∧ i.row = ((if f then Instr.andsRA1Rrx else Instr.andRA1Rrx) c d n m).row := by
  obtain ⟨⟨hw, rfl⟩, hz, hcond⟩ := (holds_a1Rrx_iff w f c d n m).mp h
  obtain ⟨c', hc⟩ := (exists_ofBits_eq_some_iff _).mpr hcond
  exact ⟨_, decodeA1_of_rrx w c' hw hc hz, by cases w.getLsbD 20 <;> rfl⟩

/-- A word of `AND_r_A1`'s or `ANDS_r_A1`'s row decodes to that row's instruction. -/
theorem decodeA1_of_holds_shift {w : Word} (f : Bool) {c : Cond} {d n m : Reg} {shift : SRType} {amount : Nat}
    (h : ((if f then Instr.andsRA1 else Instr.andRA1) c d n m shift amount).row.holds w = true) :
    ∃ i, decodeA1 w = some i ∧
      i.row = ((if f then Instr.andsRA1 else Instr.andRA1) c d n m shift amount).row := by
  obtain ⟨⟨hw, rfl⟩, hz, hcond⟩ := (holds_a1Shift_iff w f c d n m shift amount).mp h
  obtain ⟨c', hc⟩ := (exists_ofBits_eq_some_iff _).mpr hcond
  exact ⟨_, decodeA1_of_shift w c' hw hc hz, by cases w.getLsbD 20 <;> rfl⟩

/-- A value of `AND_r_T2_RRX`'s or `ANDS_r_T2_RRX`'s row decodes to that row's instruction. -/
theorem decodeT2_of_holds_rrx {w : Word} (f : Bool) {d n m : Reg} {sbz : Bool}
    (h : ((if f then Instr.andsRT2Rrx else Instr.andRT2Rrx) d n m sbz).row.holds w = true) :
    ∃ i, decodeT2 w = some i ∧ i.row = ((if f then Instr.andsRT2Rrx else Instr.andRT2Rrx) d n m sbz).row := by
  obtain ⟨⟨hw, rfl⟩, hz, ht⟩ := (holds_t2Rrx_iff w f d n m sbz).mp h
  exact ⟨_, decodeT2_of_rrx w hw ht hz, by cases w.getLsbD 20 <;> rfl⟩

/-- A value of `AND_r_T2`'s or `ANDS_r_T2`'s row decodes to that row's instruction. -/
theorem decodeT2_of_holds_shift {w : Word} (f : Bool) {d n m : Reg} {sbz : Bool} {shift : SRType} {amount : Nat}
    (h : ((if f then Instr.andsRT2 else Instr.andRT2) d n m sbz shift amount).row.holds w = true) :
    ∃ i, decodeT2 w = some i ∧
      i.row = ((if f then Instr.andsRT2 else Instr.andRT2) d n m sbz shift amount).row := by
  obtain ⟨⟨hw, rfl⟩, hz, ht⟩ := (holds_t2Shift_iff w f d n m sbz shift amount).mp h
  exact ⟨_, decodeT2_of_shift w hw ht hz, by cases w.getLsbD 20 <;> rfl⟩

theorem decodeA1_of_row_holds (w : Word) (j : Instr) (hj : j.isT32 = false) (h : j.row.holds w = true) :
    ∃ i, decodeA1 w = some i ∧ i.row = j.row := by
  cases j with
  | andRA1Rrx c d n m => exact decodeA1_of_holds_rrx false h
  | andRA1 c d n m shift amount => exact decodeA1_of_holds_shift false h
  | andsRA1Rrx c d n m => exact decodeA1_of_holds_rrx true h
  | andsRA1 c d n m shift amount => exact decodeA1_of_holds_shift true h
  | _ => cases hj

theorem decodeT2_of_row_holds (w : Word) (j : Instr) (hj : j.isT32 = true) (hl : j.length = 4)
    (h : j.row.holds w = true) : ∃ i, decodeT2 w = some i ∧ i.row = j.row := by
  cases j with
  | andRT1 dn m => cases hl
  | andRT2Rrx d n m sbz => exact decodeT2_of_holds_rrx false h
  | andRT2 d n m sbz shift amount => exact decodeT2_of_holds_shift false h
  | andsRT2Rrx d n m sbz => exact decodeT2_of_holds_rrx true h
  | andsRT2 d n m sbz shift amount => exact decodeT2_of_holds_shift true h
  | _ => cases hj

theorem decodeT1_iff_row_holds (h : Half) (i : Instr) :
    decodeT1 h = some i ↔ i.row.holds (h.setWidth 32) = true ∧ i = .andRT1 (h.extractLsb' 0 3) (h.extractLsb' 3 3) := by
  rw [decodeT1_eq_some_iff]
  refine and_congr_left ?_
  rintro rfl
  exact (holds_andRT1_iff h _ _).symm

/-- Settles O6: the decoder and the table compare the same fields. -/
theorem decoderAgreesWithTheOpcodeTable : Obligations.DecoderAgreesWithTheOpcodeTable :=
  ⟨row_holds_of_decodeA1, decodeA1_of_row_holds, decodeT1_iff_row_holds, row_holds_of_decodeT2,
    decodeT2_of_row_holds⟩

/-! ### The rows are disjoint -/

/-- Instructions whose rows a word's one decoding gives have one row. -/
theorem row_eq_of_decoding {o : Option Instr} {i j : Instr} (hi : ∃ k, o = some k ∧ k.row = i.row)
    (hj : ∃ k, o = some k ∧ k.row = j.row) : i.row = j.row := by
  obtain ⟨k, hk, hki⟩ := hi
  obtain ⟨l, hl, hlj⟩ := hj
  obtain rfl : k = l := Option.some.inj (hk.symm.trans hl)
  exact hki.symm.trans hlj

/-- The only T32 instruction that is not of four bytes is AND_r_T1. -/
theorem eq_andRT1_of_length_ne {i : Instr} (h : i.length ≠ 4) : ∃ dn m, i = .andRT1 dn m := by
  cases i with
  | andRT1 dn m => exact ⟨dn, m, rfl⟩
  | _ => exact absurd rfl h

/-- Settles O7: a word of two rows of one class would decode to both, and class T1 has one row. -/
theorem opcodeRowsDoNotOverlap : Obligations.OpcodeRowsDoNotOverlap := by
  intro w i j ht hl hi hj
  by_cases h4 : i.length = 4
  · cases hset : i.isT32 with
    | false => exact row_eq_of_decoding (decodeA1_of_row_holds w i hset hi) (decodeA1_of_row_holds w j (ht ▸ hset) hj)
    | true =>
      exact row_eq_of_decoding (decodeT2_of_row_holds w i hset h4 hi)
        (decodeT2_of_row_holds w j (ht ▸ hset) (hl ▸ h4) hj)
  · obtain ⟨_, _, rfl⟩ := eq_andRT1_of_length_ne h4
    obtain ⟨_, _, rfl⟩ := eq_andRT1_of_length_ne (hl ▸ h4)
    rfl

/-! ### Words out of scope -/

/-- Settles O8: the field 1111 names no condition. -/
theorem cond1111IsNotInScope : Obligations.Cond1111IsNotInScope := by
  intro w rest h
  have hnone : decodeA1 w = none := by
    refine Option.eq_none_iff_forall_ne_some.mpr fun i hi => ?_
    obtain ⟨-, c, hc, -⟩ := decodeA1_some w i hi
    exact (exists_ofBits_eq_some_iff _).mp ⟨c, hc⟩ h
  rw [decode_bytesA32, hnone, Decoded.ofOption]

/-- The value of the T2 format with `S` 1 and `Rd` 1111. -/
theorem and_tst_eq_iff (w : Word) :
    w &&& 0xFFF00F00#32 = 0xEA100F00#32 ↔
      (w &&& 0xFFE00000#32 = 0xEA000000#32 ∧ w.getLsbD 20 = true) ∧ w.extractLsb' 8 4 = 15#4 := by
  rw [← and_rd1111T2_eq_iff, ← and_formatT2_eq_iff, ← and_or_eq_or_iff (by decide) (by decide) (by decide)]
  rfl

/-- Every `stype` field is some shift type's. -/
theorem exists_stype_eq (b : BitVec 2) : ∃ shift : SRType, shift.stype = b :=
  ⟨(decodeImmShift b 1#5).1, (decodeImmShift_valid b 1#5 (by simp)).2.1⟩

/-- A value of the T2 format begins a 32-bit instruction. -/
theorem isWide_of_formatT2 (w : Word) (hw : w &&& 0xFFE00000#32 = 0xEA000000#32) :
    isWide (w.extractLsb' 16 16) = true := by
  obtain ⟨shift, hs⟩ := exists_stype_eq (w.extractLsb' 4 2)
  rw [← encodeT2_of_fields w hw shift hs]
  exact encodeT2_isWide _ _ _ _ _ _ _

/-- Settles O9: the decoder tells TST from ANDS before it looks at the shift. -/
theorem tstPatternIsNotInScope : Obligations.TstPatternIsNotInScope := by
  intro w rest h
  obtain ⟨⟨hw, hs⟩, hd⟩ := (and_tst_eq_iff w).mp h
  have hnone : decodeT2 w = none := by
    refine Option.eq_none_iff_forall_ne_some.mpr fun i hi => ?_
    obtain ⟨-, ht, -⟩ := decodeT2_some w i hi
    exact ht ⟨hd, hs⟩
  rw [decode_bytesT32 w rest (isWide_of_formatT2 w hw), hnone, Decoded.ofOption]

end Sys2Proof
end

section
/-! SUPPORT. The shift fields, and T2's bit 15. -/

namespace Sys2Proof

/-- Settles O10: an amount field is zero where its number is. -/
theorem decodeImmShiftGivesTypeAndAmount : Obligations.DecodeImmShiftGivesTypeAndAmount := by
  intro imm5
  have hzero : imm5.toNat = 0 ↔ imm5 = 0#5 := BitVec.toNat_inj (y := 0#5)
  simp only [hzero]
  exact ⟨rfl, rfl, rfl, rfl⟩

/-- No shift that an instruction can hold moves by more than 32 positions. -/
theorem amount_le_of_validAmount {shift : SRType} {amount : Nat} (h : shift.validAmount amount = true) :
    amount ≤ 32 := by
  cases shift <;> simp [SRType.validAmount] at h <;> omega

/-- Settles O11: the field is the amount modulo 32, and 32 is the only amount that it changes. -/
theorem amountsAreStoredModulo32 : Obligations.AmountsAreStoredModulo32 := by
  intro shift amount hv h1
  have hle := amount_le_of_validAmount hv
  refine ⟨?_, (decodeImmShift_fields shift amount hv).1⟩
  rw [amountField, BitVec.toNat_ofNat]
  split <;> omega

end Sys2Proof

namespace Sys2Proof.Machine

/-- A T2 instruction with bit 15 set is refused before its operands and its condition are looked at. -/
theorem executeT2_of_sbz (word : Word) {f : Bool} {d : Reg} (n m : Reg) (shift : SRType) (amount : Nat) (s : State)
    (ht : ¬ (d = 15#4 ∧ f = true)) :
    executeT2 word f d n m true shift amount s = .refused (.unpredictable .t2SbzBit15) := by
  rw [executeT2, if_neg ht, if_pos rfl]

/-- Settles O44: the check of bit 15 follows TST's alone. -/
theorem t2Bit15IsRefused : Obligations.T2Bit15IsRefused := by
  intro d n m shift amount s
  refine ⟨executeT2_of_sbz _ n m _ _ s (by simp), executeT2_of_sbz _ n m _ _ s (by simp), fun hd => ?_⟩
  exact ⟨executeT2_of_sbz _ n m _ _ s (by simp [hd]), executeT2_of_sbz _ n m _ _ s (by simp [hd])⟩

end Sys2Proof.Machine
end

section
/-! SUPPORT. What is fetched is the bytes of one instruction, so that the decoder answers with a word. -/

namespace Sys2Proof.Machine

/-- A read of bytes that succeeds gives as many as were asked for. -/
theorem length_of_readBytes (mem : List Host.Cell) (addr count : Nat) (bs : List Byte)
    (h : Memory.readBytes mem addr count = .ok bs) : bs.length = count := by
  induction count generalizing addr bs with
  | zero =>
    cases h
    rfl
  | succ k ih =>
    cases hb : Memory.read mem addr with
    | none => simp [Memory.readBytes, hb] at h
    | some b =>
      rw [readBytes_succ _ _ _ b hb] at h
      cases hr : Memory.readBytes mem (addr + 1) k with
      | error a => simp [hr, Except.map] at h
      | ok bs' =>
        obtain rfl : b :: bs' = bs := by simpa [hr, Except.map] using h
        rw [List.length_cons, ih _ _ hr]

theorem length_of_fetchBytes {s : State} {addr count : Nat} {bs : List Byte} (h : fetchBytes s addr count = .next bs) :
    bs.length = count := by
  unfold fetchBytes at h
  split at h
  · rename_i bs' hr
    cases h
    exact length_of_readBytes _ _ _ _ hr
  · cases h

/-- An A32 fetch gives four bytes. -/
theorem fetchA32_next_bytes (s : State) (bs : List Byte) (h : fetchA32 s = .next bs) :
    ∃ b0 b1 b2 b3, bs = [b0, b1, b2, b3] := by
  unfold fetchA32 at h
  split at h
  · rename_i bs' hb
    split at h
    · cases h
    · cases h
      exact List.length_eq_four.mp (length_of_fetchBytes hb)
  · cases h
  · cases h

/-- The second halfword adds two bytes. -/
theorem fetchSecondHalf_next_bytes (s : State) (bs bs' : List Byte) (h : fetchSecondHalf s bs = .next bs') :
    ∃ b2 b3, bs' = bs ++ [b2, b3] := by
  unfold fetchSecondHalf at h
  split at h
  · rename_i tail hb
    cases h
    obtain ⟨b2, b3, rfl⟩ := List.length_eq_two.mp (length_of_fetchBytes hb)
    exact ⟨b2, b3, rfl⟩
  · cases h
  · cases h

/-- A T32 fetch gives two bytes, or four where the first two begin a 32-bit instruction. -/
theorem fetchT32_next_bytes (s : State) (bs : List Byte) (h : fetchT32 s = .next bs) :
    ∃ b0 b1, (isWide (half b0 b1) = false ∧ bs = [b0, b1]) ∨
      (isWide (half b0 b1) = true ∧ ∃ b2 b3, bs = [b0, b1, b2, b3]) := by
  unfold fetchT32 at h
  split at h
  · rename_i first hb
    obtain ⟨b0, b1, rfl⟩ := List.length_eq_two.mp (length_of_fetchBytes hb)
    refine ⟨b0, b1, ?_⟩
    split at h
    · rename_i hw
      split at h
      · cases h
      · exact .inr ⟨hw, fetchSecondHalf_next_bytes s _ bs h⟩
    · rename_i hw
      split at h
      · cases h
      · cases h
        exact .inl ⟨eq_false_of_ne_true hw, rfl⟩
  · cases h
  · cases h

/-- The decoder answers for what is fetched with a word, and leaves no byte. -/
theorem decode_of_fetch (s : State) (bs : List Byte) (h : fetch s = .next bs) :
    ∃ o word, decode s.pstate.t bs = .ofOption o word [] := by
  have ha : s.pcAligned = true := by
    by_contra hn
    simp [fetch, hn] at h
  cases ht : s.pstate.t with
  | false =>
    rw [fetch_inA32 s ha ht] at h
    obtain ⟨b0, b1, b2, b3, rfl⟩ := fetchA32_next_bytes s bs h
    exact ⟨_, _, rfl⟩
  | true =>
    rw [fetch_inT32 s ha ht] at h
    obtain ⟨b0, b1, ⟨hw, rfl⟩ | ⟨hw, b2, b3, rfl⟩⟩ := fetchT32_next_bytes s bs h
    · exact ⟨_, _, if_neg (by simp [hw])⟩
    · exact ⟨_, _, if_pos hw⟩

/-- Where the fetch succeeds and the checks after it pass, the decoder's answer settles the step. -/
theorem step_of_fetch (s : State) (bs : List Byte) (hf : fetch s = .next bs) (hil : s.pstate.il = false)
    (hit : s.itFitsSet = true) :
    (∀ i rest, decode s.pstate.t bs = .instr i rest → step s = exec i s) ∧
      (∀ word, decode s.pstate.t bs = .notInScope word → step s = .refused (.notInScope word)) := by
  have hd := fetchDecode_of_fetch s bs hf hil hit
  exact ⟨fun i rest h => by simp [step, hd, decodeFetched, h], fun word h => by simp [step, hd, decodeFetched, h]⟩

/-- Settles O52: what is fetched holds a word of its class, which decodes or does not. -/
theorem otherWordsAreRefused : Obligations.OtherWordsAreRefused := by
  intro s bytes hf hil hit
  have hfits : s.itFitsSet = true := by
    cases ht : s.pstate.t with
    | false => simp [State.itFitsSet, hit ht]
    | true => simp [State.itFitsSet, ht]
  obtain ⟨hrun, hrefuse⟩ := step_of_fetch s bytes hf hil hfits
  obtain ⟨o, word, hd⟩ := decode_of_fetch s bytes hf
  cases o with
  | some i => exact .inl ⟨i, hd, hrun i [] hd⟩
  | none => exact .inr ⟨word, hd, hrefuse word hd⟩

end Sys2Proof.Machine
end

section
/-! SUPPORT. The words of class A1, by mask and fields, and one written word of each row. -/

namespace Sys2Proof

open Machine

theorem a1Rrx_ne_a1Shift (f f' : Bool) {c c' : Cond} {d d' n n' m m' : Reg} {shift : SRType} {amount : Nat} :
    (if f then Instr.andsRA1Rrx else Instr.andRA1Rrx) c d n m ≠
      (if f' then Instr.andsRA1 else Instr.andRA1) c' d' n' m' shift amount := by
  cases f <;> cases f' <;> simp

theorem a1Shift_inj {f f' : Bool} {c c' : Cond} {d d' n n' m m' : Reg} {shift shift' : SRType} {amount amount' : Nat}
    (h : (if f then Instr.andsRA1 else Instr.andRA1) c d n m shift amount =
      (if f' then Instr.andsRA1 else Instr.andRA1) c' d' n' m' shift' amount') :
    f = f' ∧ c = c' ∧ d = d' ∧ n = n' ∧ m = m' ∧ shift = shift' ∧ amount = amount' := by
  cases f <;> cases f' <;> simp_all

/-- The words of `AND_r_A1_RRX` and, with `S` 1, of `ANDS_r_A1_RRX` (40_and_r_a1.md R101, R103). -/
theorem decodeA1_eq_rrx_iff (w : Word) (f : Bool) (c : Cond) (d n m : Reg) :
    decodeA1 w = some ((if f then Instr.andsRA1Rrx else Instr.andRA1Rrx) c d n m) ↔
      w &&& 0x0FF00FF0#32 = placedField 20 (BitVec.ofBool f) ||| 0x00000060#32 ∧ fieldsA1 w c d n m := by
  have hmask : w &&& 0x0FF00FF0#32 = placedField 20 (BitVec.ofBool f) ||| 0x00000060#32 ↔
      (w &&& 0x0FE00010#32 = 0x00000000#32 ∧ w.getLsbD 20 = f) ∧
        w.extractLsb' 7 5 = 0#5 ∧ w.extractLsb' 5 2 = 0b11#2 := by
    rw [← and_formatA1_eq_iff, ← and_rrxA1_eq_iff, ← and_or_eq_or_iff (by decide) (by cases f <;> decide) (by decide)]
    rfl
  rw [hmask]
  constructor
  · intro h
    have hw : encodeA1 c f d n m .rrx 0#5 = w := encodeWord_a1Rrx c f d n m ▸ encodeWord_of_decodeA1 w _ h
    obtain ⟨hc, hn, hd, ha, hs, hm, hf, hformat⟩ := hw ▸ encodeA1_fields c f d n m .rrx 0#5
    exact ⟨⟨⟨hformat, hf⟩, ha, hs⟩, hc, hn, hd, hm⟩
  · rintro ⟨⟨⟨hw, rfl⟩, hz⟩, hc, rfl, rfl, rfl⟩
    exact decodeA1_of_rrx w c hw (hc ▸ ofBits_toBits c) hz

/-- The words of `AND_r_A1` and, with `S` 1, of `ANDS_r_A1` (40_and_r_a1.md R102, R104). -/
theorem decodeA1_eq_shift_iff (w : Word) (f : Bool) (c : Cond) (d n m : Reg) (shift : SRType) (amount : Nat) :
    decodeA1 w = some ((if f then Instr.andsRA1 else Instr.andRA1) c d n m shift amount) ↔
      w &&& 0x0FF00010#32 = placedField 20 (BitVec.ofBool f) ∧ w &&& 0x00000FE0#32 ≠ 0x00000060#32 ∧
        fieldsA1 w c d n m ∧ decodeImmShift (w.extractLsb' 5 2) (w.extractLsb' 7 5) = (shift, amount) := by
  rw [and_formatA1_eq_iff, ne_eq, and_rrxA1_eq_iff]
  constructor
  · intro h
    obtain ⟨hw, c', hc, ⟨-, -, hi⟩ | ⟨hz, hi⟩⟩ := decodeA1_some w _ h
    · exact absurd hi.symm (a1Rrx_ne_a1Shift _ _)
    · obtain ⟨rfl, rfl, rfl, rfl, rfl, rfl, rfl⟩ := a1Shift_inj hi
      exact ⟨⟨hw, rfl⟩, hz, ⟨(toBits_of_ofBits _ _ hc).symm, rfl, rfl, rfl⟩, rfl⟩
  · rintro ⟨⟨hw, rfl⟩, hz, ⟨hc, rfl, rfl, rfl⟩, hsh⟩
    rw [decodeA1_of_shift w c hw (hc ▸ ofBits_toBits c) hz, hsh]

/-- Settles O2: the decoder evaluated on each of the nine words. -/
theorem writtenWordsDecode : Obligations.WrittenWordsDecode := by
  unfold Obligations.WrittenWordsDecode
  decide

end Sys2Proof
end

section
/-! SUPPORT. What class A1 does, for every shift an instruction can hold. -/

namespace Sys2Proof.Machine

/-! ### The shifts of an instruction -/

/-- A shift type and amount that an instruction can hold (43_and_r_operation.md R154): one by value, or RRX's. -/
def IsShift (shift : SRType) (amount : Nat) : Prop :=
  shift.validAmount amount = true ∨ shift = .rrx ∧ amount = 1

theorem isShift_rrx : IsShift .rrx 1 := .inr ⟨rfl, rfl⟩

/-- Every bit of the result of an instruction. -/
theorem andResult_bit_of_isShift (s : State) (n m : Reg) {shift : SRType} {amount : Nat} (h : IsShift shift amount)
    (i : Nat) (hi : i < 32) :
    (andResult s n m shift amount).1.getLsbD i =
      ((s.readReg n).getLsbD i && shiftedBit shift amount (s.readReg m) s.pstate.c i) := by
  obtain hv | ⟨rfl, rfl⟩ := h
  · exact andResult_bit s n m shift amount hv i hi
  · exact andResult_rrx_bit s n m i hi

/-- The carry of an instruction, by shift form. -/
theorem andResult_carry_of_isShift (s : State) (n m : Reg) {shift : SRType} {amount : Nat} (h : IsShift shift amount) :
    (andResult s n m shift amount).2 = shiftedCarry shift amount (s.readReg m) s.pstate.c := by
  obtain hv | ⟨rfl, rfl⟩ := h
  · exact shiftC_carry _ shift amount _ hv
  · rfl

/-! ### The three ways through class A1 -/

/-- A passing condition with `Rd` below 15: the result and its frame, the pc and the flags. -/
theorem executeA1_writes (cond : Cond) (f : Bool) (d n m : Reg) {shift : SRType} {amount : Nat} (s : State)
    (h : IsShift shift amount) (hc : condHolds cond s.pstate = true) (hd : d ≠ 15#4) :
    ∃ t, executeA1 cond f d n m shift amount s = .next t ∧ holdsAnd s t d n m shift amount ∧ sameRegistersBut d s t ∧
      t.pc = s.pc + 4#32 ∧
      t.pstate = (if f then flagsOf s.pstate (t.readReg d) (shiftedCarry shift amount (s.readReg m) s.pstate.c)
        else s.pstate) ∧
      sameOutside s t := by
  obtain ⟨hread, hregs, hflags, hout⟩ := written_advanceA32 s f d (andResult s n m shift amount).1
    (andResult s n m shift amount).2 hd
  refine ⟨_, executeA1_pass cond f d n m shift amount s hc hd, fun i hi => ?_, hregs, by simp, ?_, hout⟩
  · rw [hread, andResult_bit_of_isShift s n m h i hi]
  · rw [hflags, hread, andResult_carry_of_isShift s n m h]

/-- A passing condition with `Rd` 15: the result is the address written to the PC or returned to. -/
theorem executeA1_writesPc (cond : Cond) (f : Bool) (d n m : Reg) {shift : SRType} {amount : Nat} (s : State)
    (h : IsShift shift amount) (hc : condHolds cond s.pstate = true) (hd : d = 15#4) :
    ∃ r : Word,
      executeA1 cond f d n m shift amount s = (if f then aluExceptionReturn s r else .next (aluWritePC s r)) ∧
        ∀ i, i < 32 → r.getLsbD i =
          ((s.readReg n).getLsbD i && shiftedBit shift amount (s.readReg m) s.pstate.c i) :=
  ⟨_, hd ▸ executeA1_toPc cond f n m shift amount s hc, andResult_bit_of_isShift s n m h⟩

/-- Settles O24: RRX without flags, by the three ways through class A1. -/
theorem andA1RrxDoesWhatItsRuleSays : Obligations.AndA1RrxDoesWhatItsRuleSays := by
  intro cond d n m
  refine ⟨fun w => decodeA1_eq_rrx_iff w false cond d n m, fun s => ⟨?_, ?_, ?_⟩⟩
  · exact executeA1_writes cond false d n m s isShift_rrx
  · exact executeA1_writesPc cond false d n m s isShift_rrx
  · exact executeA1_fail cond false d n m .rrx 1 s

/-- Settles O25: any other shift without flags, by the three ways through class A1. -/
theorem andA1DoesWhatItsRuleSays : Obligations.AndA1DoesWhatItsRuleSays := by
  intro cond d n m shift amount
  refine ⟨fun w => decodeA1_eq_shift_iff w false cond d n m shift amount, fun s hv => ⟨?_, ?_, ?_⟩⟩
  · exact executeA1_writes cond false d n m s (.inl hv)
  · exact executeA1_writesPc cond false d n m s (.inl hv)
  · exact executeA1_fail cond false d n m shift amount s

/-- Settles O26: RRX with flags; its carry is bit 0 of the old `Rm`. -/
theorem andsA1RrxDoesWhatItsRuleSays : Obligations.AndsA1RrxDoesWhatItsRuleSays := by
  intro cond d n m
  refine ⟨fun w => decodeA1_eq_rrx_iff w true cond d n m, fun s => ⟨?_, ?_, ?_⟩⟩
  · exact executeA1_writes cond true d n m s isShift_rrx
  · exact executeA1_writesPc cond true d n m s isShift_rrx
  · exact executeA1_fail cond true d n m .rrx 1 s

/-- Settles O27: any other shift with flags, by the three ways through class A1. -/
theorem andsA1DoesWhatItsRuleSays : Obligations.AndsA1DoesWhatItsRuleSays := by
  intro cond d n m shift amount
  refine ⟨fun w => decodeA1_eq_shift_iff w true cond d n m shift amount, fun s hv => ⟨?_, ?_, ?_⟩⟩
  · exact executeA1_writes cond true d n m s (.inl hv)
  · exact executeA1_writesPc cond true d n m s (.inl hv)
  · exact executeA1_fail cond true d n m shift amount s

/-! ### The PC as a source -/

/-- What class A1 reads as an operand (40_and_r_a1.md R105). -/
theorem readReg_a32 (s : State) (ht : s.pstate.t = false) (r : Reg) :
    (if r = 15#4 then s.pc + 8#32 else s.readReg r) = s.readReg r := by
  split
  · next hr => simp [State.readReg, hr, ht]
  · rfl

/-- Settles O34: with either flag setting the result is the AND of the operands as they are read. -/
theorem pcReadsAsAddressPlusEight : Obligations.PcReadsAsAddressPlusEight := by
  intro cond d n m shift amount s ht hc hd hv
  have written (f : Bool) {shift : SRType} {amount : Nat} (h : IsShift shift amount) :
      ∃ t, executeA1 cond f d n m shift amount s = .next t ∧ holdsAnd s t d n m shift amount := by
    obtain ⟨t, he, hand, -⟩ := executeA1_writes cond f d n m s h hc hd
    exact ⟨t, he, hand⟩
  simp only [readReg_a32 s ht]
  constructor
  · rintro i (rfl | rfl)
    · exact written false (.inl hv)
    · exact written true (.inl hv)
  · rintro i (rfl | rfl)
    · exact written false isShift_rrx
    · exact written true isShift_rrx

/-! ### AND of a register with itself -/

theorem setPhysReg_physReg_self (s : State) (k : Nat) : s.setPhysReg k (s.physReg k) = s := by
  have hregs : s.regs.setIfInBounds k (s.physReg k) = s.regs := by
    ext j hj
    rw [Vector.getElem_setIfInBounds]
    split
    · next hk => simp [← hk, State.physReg, hk ▸ hj]
    · rfl
  rw [State.setPhysReg, hregs]

/-- Writing a register with what it reads as changes nothing. -/
theorem writeReg_readReg_self (s : State) (r : Reg) : s.writeReg r (s.readReg r) = s := by
  by_cases hr : r = 15#4
  · rw [hr, writeReg_pc_register]
  · rw [readReg_of_ne s r hr, State.writeReg, if_neg hr, setPhysReg_physReg_self]

/-- Settles O35: the result is the register's own value, so that writing it changes nothing. -/
theorem andWithItselfChangesOnlyThePc : Obligations.AndWithItselfChangesOnlyThePc := by
  intro cond r s hr
  cases hc : condHolds cond s.pstate with
  | false => exact executeA1_fail cond false r r r .lsl 0 s hc
  | true =>
    have hresult : (andResult s r r .lsl 0).1 = s.readReg r := BitVec.and_self
    calc executeA1 cond false r r r .lsl 0 s
        = .next (s.writeReg r (andResult s r r .lsl 0).1).advanceA32 := executeA1_pass _ _ _ _ _ _ _ _ hc hr
      _ = .next s.advanceA32 := by rw [hresult, writeReg_readReg_self]

/-! ### AND to the PC -/

/-- From A32, an address with bit 0 set is one of T32 (43_and_r_operation.md R165). -/
theorem aluWritePC_odd (s : State) (a : Word) (ht : s.pstate.t = false) (h : a.toNat % 2 = 1) :
    aluWritePC s a = s.branchTo true (alignHalf a) := by
  rw [aluWritePC, if_neg (ne_true_of_eq_false ht), bxWritePC, if_pos (by simp only [getLsbD_zero_eq, h, decide_true])]

/-- From A32, an address that is a multiple of 4 is one of A32 (43_and_r_operation.md R165). -/
theorem aluWritePC_multipleOfFour (s : State) (a : Word) (ht : s.pstate.t = false) (h : a.toNat % 4 = 0) :
    aluWritePC s a = s.branchTo false a := by
  have h0 : a.getLsbD 0 = false := by
    rw [getLsbD_zero_eq, decide_eq_false_iff_not]
    omega
  have h1 : a.getLsbD 1 = false := by
    rw [getLsbD_one_eq, decide_eq_false_iff_not]
    omega
  rw [aluWritePC, if_neg (ne_true_of_eq_false ht), bxWritePC, if_neg (ne_true_of_eq_false h0),
    if_neg (ne_true_of_eq_false h1)]

/-- Writing the PC changes nothing outside the pc and PSTATE. -/
theorem aluWritePC_same (s : State) (a : Word) : sameRegisters s (aluWritePC s a) ∧ sameOutside s (aluWritePC s a) := by
  obtain ⟨t, pc, h⟩ := aluWritePC_eq s a
  rw [h]
  exact ⟨fun _ _ => rfl, rfl, rfl, rfl, fun _ => rfl⟩

/-- Both encodings of AND to the PC are the shared A1 operation, with a shift an instruction can hold. -/
theorem exec_and_toPc {i : Instr} {cond : Cond} {n m : Reg} {shift : SRType} {amount : Nat}
    (h : (i = .andRA1 cond 15#4 n m shift amount ∧ shift.validAmount amount = true) ∨
      (i = .andRA1Rrx cond 15#4 n m ∧ shift = .rrx ∧ amount = 1)) :
    IsShift shift amount ∧ ∀ s, exec i s = executeA1 cond false 15#4 n m shift amount s := by
  obtain ⟨rfl, hv⟩ | ⟨rfl, rfl, rfl⟩ := h
  · exact ⟨.inl hv, fun _ => rfl⟩
  · exact ⟨isShift_rrx, fun _ => rfl⟩

/-- Settles O36: the result is written to the PC, whose two low bits select the branch. -/
theorem andToThePcIsAnInterworkingBranch : Obligations.AndToThePcIsAnInterworkingBranch := by
  intro i cond n m shift amount s hi ht hc
  obtain ⟨hshift, hexec⟩ := exec_and_toPc hi
  obtain ⟨r, he, hbits⟩ := executeA1_writesPc cond false 15#4 n m s hshift hc rfl
  obtain ⟨hregs, hout⟩ := aluWritePC_same s r
  refine ⟨r, aluWritePC s r, hbits, (hexec s).trans he, hregs, hout, fun hodd => ?_, fun hfour => ?_⟩
  · rw [aluWritePC_odd s r ht hodd, branchTo_pc, alignHalf_toNat]
    exact ⟨by omega, rfl⟩
  · rw [aluWritePC_multipleOfFour s r ht hfour, branchTo_pstate, ← ht]
    exact ⟨rfl, rfl⟩

end Sys2Proof.Machine
end

section
/-! SUPPORT. What class T1 does, outside an IT block and inside one. -/

namespace Sys2Proof.Machine

/-! ### A T32 operation whose condition passes -/

/-- A passing condition: the result and its frame, the pc, the flags and the IT state. -/
theorem executeT32_writes (len : Nat) (f : Bool) (d n m : Reg) (shift : SRType) (amount : Nat) {s : State} {cond : Cond}
    (hi : s.itCond = some cond) (hc : condHolds cond s.pstate = true) (hd : d ≠ 15#4) :
    ∃ t, executeT32 len f d n m shift amount s = .next t ∧ t.readReg d = (andResult s n m shift amount).1 ∧
      sameRegistersBut d s t ∧ t.pc = s.pc + BitVec.ofNat 32 len ∧
      t.pstate =
        itAdvanced (if f then flagsOf s.pstate (t.readReg d) (andResult s n m shift amount).2 else s.pstate) ∧
      sameOutside s t := by
  obtain ⟨hread, hregs, hpstate, hout⟩ := written_advanceT32 len s f d (andResult s n m shift amount).1
    (andResult s n m shift amount).2 hd
  exact ⟨_, executeT32_pass len f d n m shift amount s cond hi hc, hread, hregs, by simp, by rw [hread, hpstate], hout⟩

/-! ### The halfwords and the operands of class T1 -/

/-- The halfwords of `AND_r_T1` (41_and_r_t1.md R121, R122). -/
theorem decodeT1_eq_andRT1_iff (h : Half) (dn m : LowReg) :
    decodeT1 h = some (.andRT1 dn m) ↔
      h &&& 0xFFC0#16 = 0x4000#16 ∧ h.extractLsb' 3 3 = m ∧ h.extractLsb' 0 3 = dn := by
  rw [decodeT1_eq_some_iff, Instr.andRT1.injEq, eq_comm (a := dn), eq_comm (a := m), and_comm (b := _ = m)]

/-- The registers of class T1 are R0 to R7 (10_state.md R22). -/
theorem lowReg_ne_pc : ∀ r : LowReg, lowReg r ≠ 15#4 := by
  decide

/-! ### The IT state -/

theorem itCond_outside {s : State} (h : s.inITBlock = false) : s.itCond = some .al :=
  if_neg (ne_true_of_eq_false h)

theorem itCond_inside {s : State} (h : s.inITBlock = true) : s.itCond = Cond.ofBits (s.pstate.it.extractLsb' 4 4) :=
  if_pos h

/-- Outside an IT block the mask is zero, so that the advance leaves no IT state. -/
theorem itAdvance_outside {s : State} (h : s.inITBlock = false) : itAdvance s.pstate.it = 0#8 := by
  have hmask : s.pstate.it.toNat % 16 = 0 := not_not.mp fun hne => ne_true_of_eq_false h ((inITBlock_iff s).mpr hne)
  exact (itAdvance_toNat s.pstate.it).1 (by omega)

/-! ### The two ways through class T1 -/

/-- Class T1 sets the flags outside an IT block only (41_and_r_t1.md R121, R122). -/
theorem exec_andRT1 (dn m : LowReg) {s : State} {b : Bool} (h : s.inITBlock = b) :
    exec (.andRT1 dn m) s = executeT32 2 (!b) (lowReg dn) (lowReg dn) (lowReg m) .lsl 0 s :=
  h ▸ rfl

/-- Settles O28: outside an IT block the condition is AL, and a shift by zero passes C through. -/
theorem andT1OutsideItBlockSetsFlags : Obligations.AndT1OutsideItBlockSetsFlags := by
  intro dn m
  refine ⟨fun h => decodeT1_eq_andRT1_iff h dn m, fun s hs => ?_⟩
  obtain ⟨t, he, hread, hregs, hpc, hpstate, hout⟩ :=
    executeT32_writes 2 true (lowReg dn) (lowReg dn) (lowReg m) .lsl 0 (itCond_outside hs) rfl (lowReg_ne_pc dn)
  refine ⟨t, (exec_andRT1 dn m hs).trans he, hread, hregs, hpc, ?_, hout⟩
  rw [hpstate, ← itAdvance_outside hs]
  rfl

/-- Settles O29: the condition is IT[7:4] inside an IT block, and no flag is set there. -/
theorem andT1InsideItBlockKeepsFlags : Obligations.AndT1InsideItBlockKeepsFlags := by
  intro dn m
  refine ⟨fun h => decodeT1_eq_andRT1_iff h dn m, fun cond s hs hcond => ?_⟩
  have hi : s.itCond = some cond := (itCond_inside hs).trans hcond
  rw [exec_andRT1 dn m hs]
  constructor
  · intro hc
    exact executeT32_writes 2 false (lowReg dn) (lowReg dn) (lowReg m) .lsl 0 hi hc (lowReg_ne_pc dn)
  · exact executeT32_fail 2 false (lowReg dn) (lowReg dn) (lowReg m) .lsl 0 s cond hi

end Sys2Proof.Machine
end

section
/-! SUPPORT. The values of class T2, by row and fields. -/

namespace Sys2Proof

open Machine

/-- The values of `AND_r_T2_RRX` and, with `S` 1, of `ANDS_r_T2_RRX` (42_and_r_t2.md R131, R133). -/
theorem decodeT2_eq_rrx_iff (w : Word) (f : Bool) (d n m : Reg) (sbz : Bool) :
    decodeT2 w = some ((if f then Instr.andsRT2Rrx else Instr.andRT2Rrx) d n m sbz) ↔
      ((if f then Instr.andsRT2Rrx else Instr.andRT2Rrx) d n m sbz).row.holds w = true ∧ fieldsT2 w d n m sbz := by
  refine (and_iff_right_of_imp (row_holds_of_decodeT2 w _)).symm.trans (and_congr_right fun h => ?_)
  obtain ⟨⟨hw, rfl⟩, hz, ht⟩ := (holds_t2Rrx_iff w f d n m sbz).mp h
  rw [decodeT2_of_rrx w hw ht hz]
  cases w.getLsbD 20 <;> simp [fieldsT2, and_assoc, and_comm, and_left_comm]

/-- The values of `AND_r_T2` and, with `S` 1, of `ANDS_r_T2` (42_and_r_t2.md R132, R134). -/
theorem decodeT2_eq_shift_iff (w : Word) (f : Bool) (d n m : Reg) (sbz : Bool) (shift : SRType) (amount : Nat) :
    decodeT2 w = some ((if f then Instr.andsRT2 else Instr.andRT2) d n m sbz shift amount) ↔
      ((if f then Instr.andsRT2 else Instr.andRT2) d n m sbz shift amount).row.holds w = true ∧
        fieldsT2 w d n m sbz ∧
        decodeImmShift (w.extractLsb' 4 2) (w.extractLsb' 12 3 ++ w.extractLsb' 6 2) = (shift, amount) := by
  refine (and_iff_right_of_imp (row_holds_of_decodeT2 w _)).symm.trans (and_congr_right fun h => ?_)
  obtain ⟨⟨hw, rfl⟩, hz, ht⟩ := (holds_t2Shift_iff w f d n m sbz shift amount).mp h
  rw [decodeT2_of_shift w hw ht hz]
  cases w.getLsbD 20 <;> simp [fieldsT2, Prod.ext_iff, and_assoc, and_left_comm]

end Sys2Proof
end

section
/-! SUPPORT. What class T2 does with operands that pass the checks of 42_and_r_t2.md R130. -/

namespace Sys2Proof.Machine

/-- A passing condition: the result and its frame, the pc, the flags and the IT state. -/
theorem executeT2_writes (word : Word) (f : Bool) {d n m : Reg} {shift : SRType} {amount : Nat} {s : State}
    {cond : Cond} (h : IsShift shift amount) (hd : d ≠ 15#4) (hn : n ≠ 15#4) (hm : m ≠ 15#4)
    (hi : s.itCond = some cond) (hc : condHolds cond s.pstate = true) :
    ∃ t, executeT2 word f d n m false shift amount s = .next t ∧ holdsAnd s t d n m shift amount ∧
      sameRegistersBut d s t ∧ t.pc = s.pc + 4#32 ∧
      t.pstate = itAdvanced
        (if f then flagsOf s.pstate (t.readReg d) (shiftedCarry shift amount (s.readReg m) s.pstate.c)
          else s.pstate) ∧
      sameOutside s t := by
  obtain ⟨t, he, hread, hregs, hpc, hpstate, hout⟩ := executeT32_writes 4 f d n m shift amount hi hc hd
  refine ⟨t, (executeT2_checked word f d n m shift amount s hd hn hm).trans he, fun i hlt => ?_, hregs, hpc, ?_,
    hout⟩
  · rw [hread, andResult_bit_of_isShift s n m h i hlt]
  · rw [hpstate, andResult_carry_of_isShift s n m h]

/-- A failing condition: only the pc and the IT state advance. -/
theorem executeT2_fail (word : Word) (f : Bool) {d n m : Reg} (shift : SRType) (amount : Nat) {s : State}
    {cond : Cond} (hd : d ≠ 15#4) (hn : n ≠ 15#4) (hm : m ≠ 15#4)
    (hi : s.itCond = some cond) (hc : condHolds cond s.pstate = false) :
    executeT2 word f d n m false shift amount s =
      .next { s with pc := s.pc + 4#32, pstate := itAdvanced s.pstate } :=
  (executeT2_checked word f d n m shift amount s hd hn hm).trans
    (executeT32_fail 4 f d n m shift amount s cond hi hc)

/-- Settles O30: RRX without flags, whose row has no exclusion, by the condition. -/
theorem andT2RrxDoesWhatItsRuleSays : Obligations.AndT2RrxDoesWhatItsRuleSays := by
  intro d n m
  refine ⟨fun w sbz => ?_, fun cond s hd hn hm hi => ⟨?_, ?_⟩⟩
  · refine (decodeT2_eq_rrx_iff w false d n m sbz).trans ?_
    simp [OpcodeRow.holds_iff, Instr.row]
  · exact executeT2_writes _ false isShift_rrx hd hn hm hi
  · exact executeT2_fail _ false .rrx 1 hd hn hm hi

/-- Settles O31: any other shift without flags, whose row excludes the fields of RRX, by the condition. -/
theorem andT2DoesWhatItsRuleSays : Obligations.AndT2DoesWhatItsRuleSays := by
  intro d n m shift amount
  refine ⟨fun w sbz => ?_, fun cond s hv hd hn hm hi => ⟨?_, ?_⟩⟩
  · refine (decodeT2_eq_shift_iff w false d n m sbz shift amount).trans ?_
    simp [OpcodeRow.holds_iff, Instr.row, and_assoc]
  · exact executeT2_writes _ false (.inl hv) hd hn hm hi
  · exact executeT2_fail _ false shift amount hd hn hm hi

/-- Settles O32: RRX with flags, whose row excludes TST, by the condition; its carry is bit 0 of the old `Rm`. -/
theorem andsT2RrxDoesWhatItsRuleSays : Obligations.AndsT2RrxDoesWhatItsRuleSays := by
  intro d n m
  refine ⟨fun w sbz => ?_, fun cond s hd hn hm hi => ⟨?_, ?_⟩⟩
  · refine (decodeT2_eq_rrx_iff w true d n m sbz).trans ?_
    simp [OpcodeRow.holds_iff, Instr.row, and_assoc]
  · exact executeT2_writes _ true isShift_rrx hd hn hm hi
  · exact executeT2_fail _ true .rrx 1 hd hn hm hi

/-- Settles O33: any other shift with flags, whose row excludes the fields of RRX and TST, by the condition. -/
theorem andsT2DoesWhatItsRuleSays : Obligations.AndsT2DoesWhatItsRuleSays := by
  intro d n m shift amount
  refine ⟨fun w sbz => ?_, fun cond s hv hd hn hm hi => ⟨?_, ?_⟩⟩
  · refine (decodeT2_eq_shift_iff w true d n m sbz shift amount).trans ?_
    simp [OpcodeRow.holds_iff, Instr.row, and_assoc]
  · exact executeT2_writes _ true (.inl hv) hd hn hm hi
  · exact executeT2_fail _ true shift amount hd hn hm hi

end Sys2Proof.Machine
end

section
/-! SUPPORT. The shifter as arithmetic, for the amounts of each shift. -/

namespace Sys2Proof.Machine

/-- Settles O13: `Shift_C` looks at the amount first. -/
theorem shiftByZeroPassesThrough : Obligations.ShiftByZeroPassesThrough :=
  shiftC_zero

theorem shiftC_lsl (x : Word) {amount : Nat} (c : Bool) (h : 1 ≤ amount) : shiftC x .lsl amount c = lslC x amount :=
  if_neg (Nat.ne_of_gt h)

theorem shiftC_lsr (x : Word) {amount : Nat} (c : Bool) (h : 1 ≤ amount) : shiftC x .lsr amount c = lsrC x amount :=
  if_neg (Nat.ne_of_gt h)

theorem shiftC_asr (x : Word) {amount : Nat} (c : Bool) (h : 1 ≤ amount) : shiftC x .asr amount c = asrC x amount :=
  if_neg (Nat.ne_of_gt h)

theorem shiftC_ror (x : Word) {amount : Nat} (c : Bool) (h : 1 ≤ amount) : shiftC x .ror amount c = rorC x amount :=
  if_neg (Nat.ne_of_gt h)

/-- Bit 32 of the exact product by a power of two is bit `32 - n` of the value. -/
theorem mul_two_pow_bit32 (a : Nat) {n : Nat} (h : n ≤ 32) : a * 2 ^ n / 2 ^ 32 = a / 2 ^ (32 - n) := by
  obtain ⟨k, hk⟩ := Nat.exists_eq_add_of_le' h
  rw [hk, Nat.add_sub_cancel, Nat.pow_add, Nat.mul_div_mul_right _ _ (Nat.two_pow_pos n)]

/-- Settles O14: a left shift is a product modulo 2^32, whose bit 32 is the last one shifted out. -/
theorem lslMultipliesModulo : Obligations.LslMultipliesModulo := by
  intro x amount c h1 h31
  rw [shiftC_lsl x c h1, mul_two_pow_bit32 _ (by omega)]
  refine ⟨?_, rfl, ?_⟩
  · rw [lslC, BitVec.toNat_shiftLeft, Nat.shiftLeft_eq]
  · rw [lslC, ← BitVec.testBit_toNat, Nat.testBit_eq_decide_div_mod_eq, decide_eq_true_iff]

/-- Settles O15: a logical right shift is an unsigned quotient, and by the whole width it leaves nothing. -/
theorem lsrDividesUnsigned : Obligations.LsrDividesUnsigned := by
  intro x amount c h1 h32
  rw [shiftC_lsr x c h1]
  refine ⟨?_, rfl, ?_⟩
  · rw [lsrC, BitVec.toNat_ushiftRight, Nat.shiftRight_eq_div_pow]
  · rintro rfl
    exact ⟨BitVec.ushiftRight_eq_zero le_rfl, rfl⟩

/-- An arithmetic shift by the whole width leaves copies of the sign bit. -/
theorem sshiftRight_32 (x : Word) : x.sshiftRight 32 = if x.getLsbD 31 then 0xFFFFFFFF#32 else 0#32 := by
  apply BitVec.eq_of_getLsbD_eq
  intro i hi
  rw [BitVec.getLsbD_sshiftRight, if_neg (by omega), BitVec.msb_eq_getLsbD_last, decide_eq_false (by omega)]
  cases x.getLsbD 31 with
  | false => simp
  | true => exact (BitVec.getLsbD_allOnes.trans (decide_eq_true hi)).symm

/-- Settles O16: an arithmetic right shift is a signed quotient, and by the whole width it leaves the sign. -/
theorem asrDividesSigned : Obligations.AsrDividesSigned := by
  intro x amount c h1 h32
  rw [shiftC_asr x c h1]
  refine ⟨?_, rfl, ?_⟩
  · rw [asrC, BitVec.toInt_sshiftRight, Int.shiftRight_eq_div_pow, Nat.cast_pow, Nat.cast_ofNat]
  · rintro rfl
    exact ⟨sshiftRight_32 x, rfl⟩

/-- Settles O17: the bits and the carry of a rotation are those of every shift by value. -/
theorem rorRotates : Obligations.RorRotates := by
  intro x amount c h1 h31
  have hv : SRType.ror.validAmount amount = true := by simp [SRType.validAmount, h1, h31]
  refine ⟨?_, shiftC_bit x .ror amount c hv, ?_, shiftC_carry x .ror amount c hv⟩
  · rw [shiftC_ror x c h1, rorC]
  · rw [shiftC_ror x c h1, rorC]

/-- Settles O18: the carry in is appended above bits 31 to 1. -/
theorem rrxRotatesThroughCarry : Obligations.RrxRotatesThroughCarry := by
  intro x c
  have hupper : (x.extractLsb' 1 31).toNat = x.toNat / 2 := by
    have := x.isLt
    rw [BitVec.extractLsb'_toNat, Nat.shiftRight_eq_div_pow]
    omega
  have hcarry : (BitVec.ofBool c).toNat * 2 ^ 31 = if c then 2 ^ 31 else 0 := by cases c <;> rfl
  refine ⟨?_, rfl⟩
  rw [shiftC_rrx, rrxC, toNat_append_eq_add, hupper, hcarry]

end Sys2Proof.Machine
end

section
/-! SUPPORT. The condition table. -/

namespace Sys2Proof.Machine

/-- Settles O12: four flags and their complements, the compound conditions by Boolean algebra, the fields one by one. -/
theorem conditionTable : Obligations.ConditionTable := by
  intro p
  have complement (b : Bool) : (!b) = true ↔ b = false := by simp
  refine ⟨.rfl, complement p.z, .rfl, complement p.c, .rfl, complement p.n, .rfl, complement p.v, ?hi, ?ls, ?ge, ?lt,
    ?gt, ?le, rfl, rfl⟩
  all_goals simp [condHolds]

end Sys2Proof.Machine
end

section
/-! SUPPORT. What the decoder gives: the class whose bytes it read, a well-formed instruction, its length. -/

namespace Sys2Proof

/-- An instruction that decodes is some class's, of bytes that begin with its word (30_encoding.md R70, R86). -/
theorem decode_instr {t : Bool} {bytes rest : List Byte} {i : Instr} (h : decode t bytes = .instr i rest) :
    (t = false ∧ ∃ b0 b1 b2 b3, bytes = b0 :: b1 :: b2 :: b3 :: rest ∧ decodeA1 (wordA32 b0 b1 b2 b3) = some i) ∨
      (t = true ∧ ∃ b0 b1, bytes = b0 :: b1 :: rest ∧ decodeT1 (half b0 b1) = some i) ∨
      (t = true ∧ ∃ b0 b1 b2 b3, bytes = b0 :: b1 :: b2 :: b3 :: rest ∧ decodeT2 (wordT32 b0 b1 b2 b3) = some i) := by
  unfold decode at h
  split at h
  · obtain ⟨hd, rfl⟩ := ofOption_instr _ _ _ _ _ h
    exact .inl ⟨rfl, _, _, _, _, rfl, hd⟩
  · split at h
    · split at h
      · obtain ⟨hd, rfl⟩ := ofOption_instr _ _ _ _ _ h
        exact .inr (.inr ⟨rfl, _, _, _, _, rfl, hd⟩)
      · cases h
    · obtain ⟨hd, rfl⟩ := ofOption_instr _ _ _ _ _ h
      exact .inr (.inl ⟨rfl, _, _, rfl, hd⟩)
  · cases h

theorem wellFormed_of_decodeA1 (w : Word) (i : Instr) (h : decodeA1 w = some i) : i.wellFormed = true := by
  obtain ⟨-, c, -, ⟨-, -, rfl⟩ | ⟨hz, rfl⟩⟩ := decodeA1_some w i h
  · cases w.getLsbD 20 <;> rfl
  · obtain ⟨hv, -, -⟩ := decodeImmShift_valid _ _ hz
    cases w.getLsbD 20 <;> exact hv

theorem wellFormed_of_decodeT1 (h : Half) (i : Instr) (hd : decodeT1 h = some i) : i.wellFormed = true := by
  obtain ⟨-, rfl⟩ := (decodeT1_eq_some_iff h i).mp hd
  rfl

theorem wellFormed_of_decodeT2 (w : Word) (i : Instr) (h : decodeT2 w = some i) : i.wellFormed = true := by
  obtain ⟨-, ht, ⟨-, -, -, rfl⟩ | ⟨hz, rfl⟩⟩ := decodeT2_some w i h
  · cases hf : w.getLsbD 20 with
    | false => rfl
    | true => simpa [Instr.wellFormed, hf] using ht
  · rw [← and_assoc, ← amountParts_zero] at hz
    obtain ⟨hv, -, -⟩ := decodeImmShift_valid _ _ hz
    cases hf : w.getLsbD 20 with
    | false => exact hv
    | true => simpa [Instr.wellFormed, hf, hv] using ht

/-- Settles O5: each class gives well-formed instructions of one set and one length. -/
theorem decodedInstructionsAreWellFormed : Obligations.DecodedInstructionsAreWellFormed := by
  intro t bytes rest i h
  obtain ⟨rfl, b0, b1, b2, b3, rfl, hd⟩ | ⟨rfl, b0, b1, rfl, hd⟩ | ⟨rfl, b0, b1, b2, b3, rfl, hd⟩ := decode_instr h
  · obtain ⟨hset, hlen⟩ := decodeA1_class _ i hd
    exact ⟨wellFormed_of_decodeA1 _ i hd, hset, by simp only [List.length_cons, hlen]; omega⟩
  · obtain ⟨hset, hlen⟩ := decodeT1_class _ i hd
    exact ⟨wellFormed_of_decodeT1 _ i hd, hset, by simp only [List.length_cons, hlen]; omega⟩
  · obtain ⟨hset, hlen⟩ := decodeT2_class _ i hd
    exact ⟨wellFormed_of_decodeT2 _ i hd, hset, by simp only [List.length_cons, hlen]; omega⟩

end Sys2Proof
end

section
/-! SUPPORT. A step on bytes that decode, by class. -/

namespace Sys2Proof.Machine

/-- A step on fetched bytes that are one instruction's is that instruction's meaning. -/
theorem step_of_fetch_decode {s : State} {bs : List Byte} {i : Instr} (hf : fetch s = .next bs)
    (hil : s.pstate.il = false) (hit : s.itFitsSet = true) (hd : decode s.pstate.t bs = .instr i []) :
    step s = exec i s :=
  (step_of_fetch s bs hf hil hit).1 i [] hd

/-- Any IT state fits T32. -/
theorem itFitsSet_inT32 {s : State} (ht : s.pstate.t = true) : s.itFitsSet = true := by
  simp [State.itFitsSet, ht]

/-- Settles O1: each class's bytes are fetched whole and decode as its word. -/
theorem stepRunsTheDecodedInstruction : Obligations.StepRunsTheDecodedInstruction := by
  intro s i b0 b1 b2 b3 ha hil m0 m1
  have hfirst := readBytes_two _ _ _ _ m0 m1
  refine ⟨fun ht hit hw m2 m3 hd => ?_, fun ht hwide hw hd => ?_, fun ht hwide hw m2 m3 hd => ?_⟩
  · have hf : fetch s = .next [b0, b1, b2, b3] :=
      (fetch_inA32 s ha ht).trans (fetchA32_next s _ (readBytes_four _ _ _ _ _ _ m0 m1 m2 m3) hw)
    exact step_of_fetch_decode hf hil (by simp [State.itFitsSet, hit]) (by rw [ht, decode, hd, Decoded.ofOption])
  · have hf : fetch s = .next [b0, b1] := (fetch_inT32 s ha ht).trans (fetchT32_narrow s b0 b1 hfirst hwide hw)
    exact step_of_fetch_decode hf hil (itFitsSet_inT32 ht) (by simp [ht, decode, hwide, hd, Decoded.ofOption])
  · have hf : fetch s = .next [b0, b1, b2, b3] :=
      (fetch_inT32 s ha ht).trans ((fetchT32_wide s b0 b1 hfirst hwide hw).trans
        (fetchSecondHalf_next s _ _ (readBytes_two _ _ _ _ m2 m3)))
    exact step_of_fetch_decode hf hil (itFitsSet_inT32 ht) (by simp [ht, decode, hwide, hd, Decoded.ofOption])

end Sys2Proof.Machine
end

section
/-! SUPPORT. Exception returns: which are legal, and what ANDS to the PC restores. -/

namespace Sys2Proof.Machine

/-! ### Illegal return events -/

/-- Every mode number has M[4] set: the numbers without it are those of AArch64 (10_state.md R34, R36). -/
theorem number_bit4 (m : Mode) : m.number.getLsbD 4 = true := by
  cases m <;> rfl

/-- The configuration is asked only from EL2 and EL3 (43_and_r_operation.md R169). -/
theorem configAllows_iff (p : PState) (target : Mode) :
    configAllows p target = true ↔
      (2 ≤ p.el.toNat → Config.securityAllows p.mode.number p.el target.number = true) := by
  rw [configAllows, Bool.or_eq_true, decide_eq_true_iff, or_iff_not_imp_left, not_lt]

/-- The modes of EL1 or EL3 are at no higher level than any mode but User. -/
theorem privilegedLevel_le_iff (p : PState) (h : p.mode.hasLevel p.el = true) :
    (privilegedLevel p).toNat ≤ p.el.toNat ↔ 1 ≤ p.el.toNat := by
  unfold privilegedLevel
  cases hm : p.mode with
  | user => simp
  | hyp => simp
  | monitor =>
    have hel : p.el = 3#2 := by simpa [hm, Mode.hasLevel] using h
    cases Config.el3UsesAArch32 <;> simp [hel]
  | _ =>
    have hel : p.el = 1#2 ∨ p.el = 3#2 := by simpa [hm, Mode.hasLevel] using h
    obtain hel | hel := hel <;> simp [hel]

/-- A target that is implemented and at no higher level than the mode the return leaves. -/
theorem returnLevel_le_and_implemented_iff (p : PState) (target : Mode) (h : p.mode.hasLevel p.el = true) :
    (returnLevel p target).toNat ≤ p.el.toNat ∧ target.implemented = true ↔
      target = .user ∨ (target = .hyp ∧ Config.haveEL2 = true ∧ 2 ≤ p.el.toNat) ∨
        (target = .monitor ∧ p.el.toNat = 3) ∨
        (target ∈ [Mode.fiq, .irq, .supervisor, .abort, .undefined, .system] ∧ 1 ≤ p.el.toNat) := by
  have hpriv := privilegedLevel_le_iff p h
  cases target with
  | user => simp [returnLevel, Mode.implemented]
  | hyp => simp [returnLevel, Mode.implemented, and_comm]
  | monitor =>
    have := p.el.isLt
    have hel : 3 ≤ p.el.toNat ↔ p.el.toNat = 3 := by omega
    simp [returnLevel, Mode.implemented, hel]
  | _ => simp [returnLevel, Mode.implemented, hpriv]

/-- Settles O41: the conditions of a legal return, with the levels worked out for each target. -/
theorem illegalReturnEvents : Obligations.IllegalReturnEvents := by
  intro p spsr
  refine ⟨fun h4 => ?_, fun hn => ?_, returnTarget_number p spsr, fun hlevel target hnum => ?_⟩
  · refine Option.eq_none_iff_forall_ne_some.mpr fun target h => ?_
    have hbit := number_bit4 target
    rw [returnTarget_number p spsr target h, BitVec.getLsbD_extractLsb'] at hbit
    exact ne_true_of_eq_false h4 hbit
  · refine Option.eq_none_iff_forall_ne_some.mpr fun target h => ?_
    rw [(ofNumber_eq_some_iff _ target).mpr (returnTarget_number p spsr target h)] at hn
    cases hn
  · rw [returnTarget_eq_some_iff, and_iff_right hnum, ← and_assoc, returnLevel_le_and_implemented_iff p target hlevel,
      configAllows_iff]

/-! ### The effect of a return -/

/-- The mode, the level and IL after a return: the target's where it is legal, else as they were with IL set. -/
theorem returnMode_cases (p : PState) (spsr : Word) :
    (∃ target, returnTarget p spsr = some target ∧ target.number = spsr.extractLsb' 0 5 ∧
        (returnMode p spsr).mode = target ∧ (returnMode p spsr).el = returnLevel p target ∧
        (returnMode p spsr).il = spsr.getLsbD 20) ∨
      (returnTarget p spsr = none ∧ (returnMode p spsr).mode = p.mode ∧ (returnMode p spsr).el = p.el ∧
        (returnMode p spsr).il = true) := by
  unfold returnMode
  cases h : returnTarget p spsr with
  | some target => exact .inl ⟨target, rfl, returnTarget_number p spsr target h, rfl, rfl, rfl⟩
  | none => exact .inr ⟨rfl, rfl, rfl, rfl⟩

/-- The pc of a return, as a number. -/
theorem exceptionReturn_pc_toNat (s : State) (a spsr : Word) :
    (exceptionReturn s a spsr).pc.toNat =
      if spsr.getLsbD 5 then a.toNat / 2 * 2 else a.toNat / 4 * 4 := by
  rw [exceptionReturn_pc, apply_ite BitVec.toNat, alignHalf_toNat, alignWord_toNat, spsrT]

/-- The GE field of an SPSR, as a number. -/
theorem spsrGE_toNat (spsr : Word) : (spsr.extractLsb' 16 4).toNat = spsr.toNat / 2 ^ 16 % 16 := by
  rw [BitVec.extractLsb'_toNat, Nat.shiftRight_eq_div_pow]

/-- ANDS to the PC in a mode with an SPSR that is not Hyp is an exception return. -/
theorem aluExceptionReturn_of_spsr {s : State} (a : Word) {spsr : Word} (hm : s.pstate.mode ≠ .hyp)
    (hs : s.currentSpsr = some spsr) : aluExceptionReturn s a = .next (exceptionReturn s a spsr) := by
  rw [aluExceptionReturn, if_neg hm, hs]

/-- Both encodings of ANDS to the PC are the shared A1 operation, with a shift an instruction can hold. -/
theorem exec_ands_toPc {i : Instr} {cond : Cond} {n m : Reg} {shift : SRType} {amount : Nat}
    (h : (i = .andsRA1 cond 15#4 n m shift amount ∧ shift.validAmount amount = true) ∨
      (i = .andsRA1Rrx cond 15#4 n m ∧ shift = .rrx ∧ amount = 1)) :
    IsShift shift amount ∧ ∀ s, exec i s = executeA1 cond true 15#4 n m shift amount s := by
  obtain ⟨rfl, hv⟩ | ⟨rfl, rfl, rfl⟩ := h
  · exact ⟨.inl hv, fun _ => rfl⟩
  · exact ⟨isShift_rrx, fun _ => rfl⟩

/-- `SPSR_<current_mode>` in each mode but Hyp (10_state.md R35). -/
theorem currentSpsr_by_mode (s : State) :
    (s.pstate.mode = .fiq → s.currentSpsr = some s.spsr.fiq) ∧
    (s.pstate.mode = .irq → s.currentSpsr = some s.spsr.irq) ∧
    (s.pstate.mode = .supervisor → s.currentSpsr = some s.spsr.svc) ∧
    (s.pstate.mode = .monitor → s.currentSpsr = some s.spsr.mon) ∧
    (s.pstate.mode = .abort → s.currentSpsr = some s.spsr.abt) ∧
    (s.pstate.mode = .undefined → s.currentSpsr = some s.spsr.und) ∧
    (s.pstate.mode = .user ∨ s.pstate.mode = .system → s.currentSpsr = none) := by
  unfold State.currentSpsr
  cases s.pstate.mode <;> simp

/-- Settles O40: the result is the address returned to; `returnMode` gives the mode, `restorePState` the other fields. -/
theorem exceptionReturnRestoresPstate : Obligations.ExceptionReturnRestoresPstate := by
  refine ⟨currentSpsr_by_mode, fun i cond n m shift amount s spsr hi hc hm hs => ?_⟩
  obtain ⟨hshift, hexec⟩ := exec_ands_toPc hi
  obtain ⟨r, he, hbits⟩ := executeA1_writesPc cond true 15#4 n m s hshift hc rfl
  have hreturn : exec i s = .next (exceptionReturn s r spsr) :=
    (hexec s).trans (he.trans (aluExceptionReturn_of_spsr r hm hs))
  exact ⟨r, exceptionReturn s r spsr, hbits, hreturn, fun _ _ => rfl, rfl, rfl, fun _ => rfl,
    exceptionReturn_pc_toNat s r spsr, rfl, rfl, rfl, rfl, rfl, spsrIT_toNat spsr, spsrGE_toNat spsr, rfl, rfl, rfl,
    rfl, rfl, fun h => if_pos h, fun h => if_pos h, fun h => if_pos h, returnMode_cases s.pstate spsr⟩

end Sys2Proof.Machine
end

section
/-! SUPPORT. ANDS to the PC in the modes without an exception return, and the operands that T2 refuses. -/

namespace Sys2Proof.Machine

/-! ### ANDS to the PC without an exception return -/

/-- In Hyp mode ANDS to the PC is UNDEFINED, whatever the address (60_exceptions.md R191). -/
theorem aluExceptionReturn_inHyp {s : State} (hm : s.pstate.mode = .hyp) (a : Word) :
    aluExceptionReturn s a = .fault .undefined :=
  if_pos hm

/-- Settles O38: the result does not matter, and a failing condition only advances the pc. -/
theorem andsToThePcInHypIsUndefined : Obligations.AndsToThePcInHypIsUndefined := by
  intro cond n m shift amount s hm
  refine ⟨fun hc => ?_, fun hc => ⟨executeA1_fail _ _ _ _ _ _ _ s hc, executeA1_fail _ _ _ _ _ _ _ s hc⟩⟩
  have undefined (shift : SRType) (amount : Nat) :
      executeA1 cond true 15#4 n m shift amount s = .fault .undefined :=
    (executeA1_toPc cond true n m shift amount s hc).trans (aluExceptionReturn_inHyp hm _)
  exact ⟨undefined shift amount, undefined .rrx 1⟩

/-- User and System mode have no SPSR (10_state.md R35). -/
theorem currentSpsr_inUserOrSystem {s : State} (hm : s.pstate.mode = .user ∨ s.pstate.mode = .system) :
    s.currentSpsr = none := by
  obtain ⟨-, -, -, -, -, -, hnone⟩ := currentSpsr_by_mode s
  exact hnone hm

/-- Without an SPSR the implementation chooses what ANDS to the PC does, whatever the address (43_and_r_operation.md
R167). -/
theorem aluExceptionReturn_of_no_spsr {s : State} (hs : s.currentSpsr = none) :
    (Config.aluExcReturnUsrSys = .undefined ∧ ∀ a, aluExceptionReturn s a = .fault .undefined) ∨
      (Config.aluExcReturnUsrSys = .nop ∧ ∀ a, aluExceptionReturn s a = .next s.advanceA32) := by
  have hm : s.pstate.mode ≠ .hyp := fun h => by simp [State.currentSpsr, h] at hs
  cases hcfg : Config.aluExcReturnUsrSys with
  | undefined => exact .inl ⟨rfl, fun a => by rw [aluExceptionReturn, if_neg hm, hs, hcfg]; rfl⟩
  | nop => exact .inr ⟨rfl, fun a => by rw [aluExceptionReturn, if_neg hm, hs, hcfg]⟩

/-- Settles O39: User and System mode have no SPSR, and the choice is one for both encodings. -/
theorem andsToThePcInUserAndSystem : Obligations.AndsToThePcInUserAndSystem := by
  intro cond n m shift amount s hm hc
  have toPc (shift : SRType) (amount : Nat) := executeA1_toPc cond true n m shift amount s hc
  refine (aluExceptionReturn_of_no_spsr (currentSpsr_inUserOrSystem hm)).imp ?_ ?_
  · rintro ⟨hcfg, hfault⟩
    exact ⟨hcfg, (toPc shift amount).trans (hfault _), (toPc .rrx 1).trans (hfault _)⟩
  · rintro ⟨hcfg, hnext⟩
    exact ⟨hcfg, (toPc shift amount).trans (hnext _), (toPc .rrx 1).trans (hnext _)⟩

/-! ### The operands of class T2 -/

/-- A T2 instruction with bit 15 clear and the PC as an operand is refused before its condition is looked at. -/
theorem executeT2_of_pcOperand (word : Word) {f : Bool} {d n m : Reg} (shift : SRType) (amount : Nat) (s : State)
    (ht : ¬ (d = 15#4 ∧ f = true)) (hpc : d = 15#4 ∨ n = 15#4 ∨ m = 15#4) :
    executeT2 word f d n m false shift amount s = .refused (.unpredictable .t2PcOperand) := by
  rw [executeT2, if_neg ht, if_neg Bool.false_ne_true, if_pos hpc]

/-- Settles O45: past the check of the PC a well-formed IT state names a condition, which passes or fails. -/
theorem t2PcOperandsAreRefused : Obligations.T2PcOperandsAreRefused := by
  refine ⟨fun d n m shift amount s hpc => ?_, fun d n m shift amount s hw hd hn hm => ?_⟩
  · have refused (word : Word) {f : Bool} (ht : ¬ (d = 15#4 ∧ f = true)) (shift : SRType) (amount : Nat) :
        executeT2 word f d n m false shift amount s = .refused (.unpredictable .t2PcOperand) :=
      executeT2_of_pcOperand word shift amount s ht hpc
    refine ⟨refused _ (by simp) _ _, refused _ (by simp) _ _, fun hd => ?_⟩
    exact ⟨refused _ (by simp [hd]) _ _, refused _ (by simp [hd]) _ _⟩
  · obtain ⟨cond, hcond⟩ := itCond_of_wellFormed s hw
    have completes (word : Word) (f : Bool) (shift : SRType) (amount : Nat) :
        isNext (executeT2 word f d n m false shift amount s) = true := by
      rw [executeT2_checked word f d n m shift amount s hd hn hm]
      exact isNext_executeT32 4 f d n m shift amount s cond hcond
    exact ⟨completes _ _ _ _, completes _ _ _ _, completes _ _ _ _, completes _ _ _ _⟩

end Sys2Proof.Machine
end

section
/-! SUPPORT. The rest of PSTATE and the exclusive monitor over a step. -/

namespace Sys2Proof.Machine

/-- A next state with the exclusive monitor and every field of PSTATE but N, Z, C, IT and T as they were. -/
def SameRestOfPstate (s t : State) : Prop :=
  t.exclusive = s.exclusive ∧ t.pstate =
    { s.pstate with n := t.pstate.n, z := t.pstate.z, c := t.pstate.c, it := t.pstate.it, t := t.pstate.t }

theorem sameRestOfPstate_aluWritePC (s : State) (a : Word) : SameRestOfPstate s (aluWritePC s a) := by
  obtain ⟨t, pc, h⟩ := aluWritePC_eq s a
  rw [h]
  exact ⟨rfl, rfl⟩

/-- An exception return is the only way to a next state that can change the rest of PSTATE. -/
theorem NextBy.sameRestOfPstate_or_returns {i : Instr} {s t : State} (h : NextBy i s t) :
    SameRestOfPstate s t ∨
      ∃ cond, IsA1 i cond true 15#4 ∧ condHolds cond s.pstate = true ∧ s.pstate.mode ≠ .hyp ∧
        s.currentSpsr ≠ none := by
  cases h with
  | advanceA32 | advanceT32 => exact .inl ⟨rfl, rfl⟩
  | writePc _ address => exact .inl (sameRestOfPstate_aluWritePC s address)
  | exceptionReturn cond _ _ hi hc hm hs => exact .inr ⟨cond, hi, hc, hm, by simp [hs]⟩

/-- The A1 instructions that set the flags, with the PC as destination. -/
theorem IsA1.andsToPc {i : Instr} {cond : Cond} (h : IsA1 i cond true 15#4) :
    ∃ n m, i = .andsRA1Rrx cond 15#4 n m ∨ ∃ shift amount, i = .andsRA1 cond 15#4 n m shift amount := by
  cases h with
  | andsRrx _ _ n m => exact ⟨n, m, .inl rfl⟩
  | ands _ _ n m shift amount => exact ⟨n, m, .inr ⟨shift, amount, rfl⟩⟩

/-- Settles O56: only the exception return is left, whose mode has an SPSR, so that it is not User or System. -/
theorem onlyExceptionReturnChangesTheRestOfPstate : Obligations.OnlyExceptionReturnChangesTheRestOfPstate := by
  intro s t h
  obtain ⟨i, hi, hnext⟩ := step_nextBy s t h
  refine hnext.sameRestOfPstate_or_returns.imp_right ?_
  rintro ⟨cond, hA1, hc, hhyp, hspsr⟩
  obtain ⟨n, m, hform⟩ := hA1.andsToPc
  refine ⟨cond, n, m, ?_, hc, hhyp, fun hm => hspsr (currentSpsr_inUserOrSystem (.inl hm)),
    fun hm => hspsr (currentSpsr_inUserOrSystem (.inr hm))⟩
  simpa only [hi, Host.Outcome.next.injEq] using hform

end Sys2Proof.Machine
end

section
/-! SUPPORT. Every operation but the exception return commutes with a change of the mode and the level, on the registers
that all modes share. -/

namespace Sys2Proof.Machine

/-! ### Outcomes -/

/-- An outcome with its next state, if it has one, in another mode at another Exception level. -/
def outcomeInMode (o : Host.Outcome State Fault Refusal) (mode : Mode) (el : BitVec 2) :
    Host.Outcome State Fault Refusal :=
  match o with
  | .next t => .next (t.inMode mode el)
  | .fault f => .fault f
  | .refused r => .refused r

/-! ### Registers -/

/-- A register that every mode reads and writes alike: R0 to R7 (log 9), or the PC. -/
def SharedReg (r : Reg) : Prop :=
  r.toNat < 8 ∨ r = 15#4

/-- A shared register other than the PC is one physical register in every mode. -/
theorem physIndex_of_sharedReg {r : Reg} (h : SharedReg r) (hr : r ≠ 15#4) (a b : Mode) :
    physIndex a r = physIndex b r := by
  have hlow := h.resolve_right hr
  rw [physIndex_low a r hlow, physIndex_low b r hlow]

section
variable (s : State) (mode : Mode) (el : BitVec 2)

theorem readReg_inMode {r : Reg} (h : SharedReg r) : (s.inMode mode el).readReg r = s.readReg r := by
  by_cases hr : r = 15#4
  · subst hr
    rfl
  · rw [readReg_of_ne _ _ hr, readReg_of_ne _ _ hr, physIndex_of_sharedReg h hr _ s.pstate.mode]
    rfl

theorem writeReg_inMode {r : Reg} (h : SharedReg r) (v : Word) :
    (s.inMode mode el).writeReg r v = (s.writeReg r v).inMode mode el := by
  by_cases hr : r = 15#4
  · rw [hr, writeReg_pc_register, writeReg_pc_register]
  · rw [State.writeReg, State.writeReg, if_neg hr, if_neg hr, physIndex_of_sharedReg h hr _ s.pstate.mode]
    rfl

/-! ### The parts of the shared execute pseudocode -/

theorem inMode_t : (s.inMode mode el).pstate.t = s.pstate.t := rfl

theorem condHolds_inMode (cond : Cond) : condHolds cond (s.inMode mode el).pstate = condHolds cond s.pstate := by
  cases cond <;> rfl

theorem itCond_inMode : (s.inMode mode el).itCond = s.itCond := rfl

theorem andResult_inMode {n m : Reg} (hn : SharedReg n) (hm : SharedReg m) (shift : SRType) (amount : Nat) :
    andResult (s.inMode mode el) n m shift amount = andResult s n m shift amount := by
  rw [andResult, readReg_inMode s mode el hn, readReg_inMode s mode el hm]
  rfl

theorem writeResult_inMode {d : Reg} (hd : SharedReg d) (f : Bool) (v : Word) (c : Bool) :
    writeResult (s.inMode mode el) f d v c = (writeResult s f d v c).inMode mode el := by
  rw [writeResult, writeReg_inMode s mode el hd]
  cases f <;> rfl

theorem bxWritePC_inMode (a : Word) : bxWritePC (s.inMode mode el) a = (bxWritePC s a).inMode mode el := by
  unfold bxWritePC
  split
  · rfl
  · split
    · split <;> rfl
    · rfl

theorem aluWritePC_inMode (a : Word) : aluWritePC (s.inMode mode el) a = (aluWritePC s a).inMode mode el := by
  rw [aluWritePC, aluWritePC, bxWritePC_inMode, inMode_t]
  split <;> rfl

/-! ### The three classes -/

theorem executeA1_inMode (cond : Cond) {f : Bool} {d n m : Reg} (hr : ∀ r ∈ [d, n, m], SharedReg r) (shift : SRType)
    (amount : Nat) (hpc : d = 15#4 → f = false) :
    executeA1 cond f d n m shift amount (s.inMode mode el) =
      outcomeInMode (executeA1 cond f d n m shift amount s) mode el := by
  obtain ⟨hd, hn, hm⟩ : SharedReg d ∧ SharedReg n ∧ SharedReg m := by simpa using hr
  rw [executeA1_eq, executeA1_eq, condHolds_inMode, andResult_inMode s mode el hn hm,
    writeResult_inMode s mode el hd, aluWritePC_inMode]
  split
  · rfl
  · split
    · rfl
    · next h15 =>
      rw [hpc (not_not.mp h15)]
      rfl

theorem executeT32_inMode (len : Nat) (f : Bool) {d n m : Reg} (hr : ∀ r ∈ [d, n, m], SharedReg r) (shift : SRType)
    (amount : Nat) :
    executeT32 len f d n m shift amount (s.inMode mode el) =
      outcomeInMode (executeT32 len f d n m shift amount s) mode el := by
  obtain ⟨hd, hn, hm⟩ : SharedReg d ∧ SharedReg n ∧ SharedReg m := by simpa using hr
  simp only [executeT32, itCond_inMode, condHolds_inMode, andResult_inMode s mode el hn hm,
    writeResult_inMode s mode el hd]
  cases s.itCond with
  | none => rfl
  | some cond =>
    dsimp only
    split <;> rfl

theorem executeT2_inMode (word : Word) (f : Bool) {d n m : Reg} (hr : ∀ r ∈ [d, n, m], SharedReg r) (sbz : Bool)
    (shift : SRType) (amount : Nat) :
    executeT2 word f d n m sbz shift amount (s.inMode mode el) =
      outcomeInMode (executeT2 word f d n m sbz shift amount s) mode el := by
  rw [executeT2, executeT2, executeT32_inMode s mode el 4 f hr]
  split
  · rfl
  · split
    · rfl
    · split <;> rfl

/-- Every form but ANDS to the PC, on shared registers, commutes with a change of the mode and the level. -/
theorem exec_inMode (i : Instr) (hr : ∀ r ∈ registersOf i, SharedReg r) (hi : isAndsToPc i = false) :
    exec i (s.inMode mode el) = outcomeInMode (exec i s) mode el := by
  cases i with
  | andRA1Rrx cond => exact executeA1_inMode s mode el cond hr .rrx 1 fun _ => rfl
  | andRA1 cond _ _ _ shift amount => exact executeA1_inMode s mode el cond hr shift amount fun _ => rfl
  | andsRA1Rrx cond =>
    exact executeA1_inMode s mode el cond hr .rrx 1 fun hd => absurd hd (beq_eq_false_iff_ne.mp hi)
  | andsRA1 cond _ _ _ shift amount =>
    exact executeA1_inMode s mode el cond hr shift amount fun hd => absurd hd (beq_eq_false_iff_ne.mp hi)
  | andRT1 => exact executeT32_inMode s mode el 2 _ (by simpa [registersOf] using hr) .lsl 0
  | andRT2Rrx _ _ _ sbz => exact executeT2_inMode s mode el _ false hr sbz .rrx 1
  | andRT2 _ _ _ sbz shift amount => exact executeT2_inMode s mode el _ false hr sbz shift amount
  | andsRT2Rrx _ _ _ sbz => exact executeT2_inMode s mode el _ true hr sbz .rrx 1
  | andsRT2 _ _ _ sbz shift amount => exact executeT2_inMode s mode el _ true hr sbz shift amount

end

/-- Settles O59: the outcome in the other mode is the outcome, moved to that mode. -/
theorem resultsDoNotDependOnTheMode : Obligations.ResultsDoNotDependOnTheMode := by
  intro i s mode el hr hi
  rw [exec_inMode s mode el i hr hi]
  refine ⟨fun t h => ?_, fun f h => ?_, fun r h => ?_⟩ <;> rw [h, outcomeInMode]

end Sys2Proof.Machine
end

section
/-! SUPPORT. A branch to an A32 address with bit 1 set. -/

namespace Sys2Proof.Machine

/-- From A32, an address with bits 1:0 of `10` is one of A32, aligned or not as the implementation has it
(43_and_r_operation.md R165). -/
theorem aluWritePC_unaligned (s : State) (a : Word) (ht : s.pstate.t = false) (h : a.toNat % 4 = 2) :
    (Config.a32UnalignedBranch = .forceAlign ∧ aluWritePC s a = s.branchTo false (alignWord a)) ∨
      (Config.a32UnalignedBranch = .faultAtTarget ∧ aluWritePC s a = s.branchTo false a) := by
  have h0 : a.getLsbD 0 = false := by
    rw [getLsbD_zero_eq, decide_eq_false_iff_not]
    omega
  have h1 : a.getLsbD 1 = true := by
    rw [getLsbD_one_eq, decide_eq_true_iff]
    omega
  rw [aluWritePC, if_neg (ne_true_of_eq_false ht), bxWritePC, if_neg (ne_true_of_eq_false h0), if_pos h1]
  cases Config.a32UnalignedBranch with
  | forceAlign => exact .inl ⟨rfl, rfl⟩
  | faultAtTarget => exact .inr ⟨rfl, rfl⟩

/-- A branch inside A32 keeps PSTATE. -/
theorem branchTo_pstate_inA32 (s : State) (pc : Word) (ht : s.pstate.t = false) :
    (s.branchTo false pc).pstate = s.pstate := by
  rw [branchTo_pstate, ← ht]

/-- Settles O37: the target is aligned to a word, or the alignment check of the next fetch stops at it. -/
theorem unalignedA32TargetHasTwoOutcomes : Obligations.UnalignedA32TargetHasTwoOutcomes := by
  intro s r ht hr
  obtain ⟨hregs, hout⟩ := aluWritePC_same s r
  refine ⟨hregs, hout, ?_⟩
  obtain ⟨hcfg, heq⟩ | ⟨hcfg, heq⟩ := aluWritePC_unaligned s r ht hr
  · have hpc : (alignWord r).toNat = r.toNat - 2 := by
      rw [alignWord_toNat]
      omega
    rw [heq]
    exact ⟨branchTo_pstate_inA32 s _ ht, .inl ⟨hcfg, hpc⟩⟩
  · have hstep : step (s.branchTo false r) = .fault (.fetch r) :=
      (misalignedFetchFaults (s.branchTo false r)).1 rfl (by rw [branchTo_pc]; omega)
    rw [heq]
    exact ⟨branchTo_pstate_inA32 s _ ht, .inr ⟨hcfg, rfl, hstep⟩⟩

end Sys2Proof.Machine
end

section
/-! SUPPORT. The banks over two modes (log 9). -/

namespace Sys2Proof.Machine

/-- R8 to R12 of FIQ mode are its own, those of every other mode are User mode's. -/
theorem physIndex_middle (m : Mode) {r : Reg} (h8 : 8 ≤ r.toNat) (h13 : r.toNat < 13) :
    physIndex m r = if m = .fiq then r.toNat + 7 else r.toNat := by
  rw [physIndex, if_neg h8.not_gt, if_pos h13]

/-- Two modes share R8 to R12 where both or neither is FIQ mode. -/
theorem physIndex_middle_eq_iff (a b : Mode) {r : Reg} (h8 : 8 ≤ r.toNat) (h13 : r.toNat < 13) :
    physIndex a r = physIndex b r ↔ (a = .fiq ↔ b = .fiq) := by
  rw [physIndex_middle a h8 h13, physIndex_middle b h8 h13]
  by_cases ha : a = .fiq <;> by_cases hb : b = .fiq <;> simp [ha, hb]

/-- Two modes share R13 where they are one, or User and System mode. -/
theorem physIndex_sp_eq_iff (a b : Mode) :
    physIndex a 13#4 = physIndex b 13#4 ↔ a = b ∨ (a = .user ∧ b = .system) ∨ (a = .system ∧ b = .user) := by
  cases a <;> cases b <;> decide

/-- Two modes share R14 where they are one, or among User, System and Hyp mode. -/
theorem physIndex_lr_eq_iff (a b : Mode) :
    physIndex a 14#4 = physIndex b 14#4 ↔
      a = b ∨ (a ∈ [Mode.user, .system, .hyp] ∧ b ∈ [Mode.user, .system, .hyp]) := by
  cases a <;> cases b <;> decide

/-- The register number that the physical register at an index of `regs` has, in whatever mode sees it: R0 to R14 of
User mode, R8 to R14 of FIQ, then the pairs of R13 and R14, and R13 of Hyp. -/
def numberOfPhysReg (k : Nat) : Reg :=
  if k < 15 then BitVec.ofNat 4 k
  else if k < 22 then BitVec.ofNat 4 (k - 7)
  else BitVec.ofNat 4 (13 + k % 2)

/-- A register below 15 has its number back from the physical register it names, in every mode. -/
theorem numberOfPhysReg_physIndex (m : Mode) (r : Reg) (hr : r ≠ 15#4) : numberOfPhysReg (physIndex m r) = r := by
  revert r
  cases m <;> decide

/-- Settles O21: each range of numbers by its banks; a physical register has one number whatever the mode. -/
theorem bankedRegisters : Obligations.BankedRegisters := by
  refine ⟨fun a b r h => ?_, fun a b r h8 h13 => physIndex_middle_eq_iff a b h8 h13, physIndex_sp_eq_iff,
    physIndex_lr_eq_iff, fun a b q r hq hr h => ?_⟩
  · rw [physIndex_low a r h, physIndex_low b r h]
  · rw [← numberOfPhysReg_physIndex a q hq, h, numberOfPhysReg_physIndex b r hr]

end Sys2Proof.Machine
end

section
/-! SUPPORT. The condition of a well-formed IT state, and the Illegal Execution state. -/

namespace Sys2Proof.Machine

/-- A well-formed IT state does not name 1111 in a block. -/
theorem condition_ne_1111_of_itWellFormed {it : BitVec 8} (hw : itWellFormed it = true) (hb : it.toNat % 16 ≠ 0) :
    it.toNat / 16 ≠ 15 := by
  have hmask : it.extractLsb' 0 4 ≠ 0#4 := fun h => hb (by simpa using congrArg BitVec.toNat h)
  have hcond : it.extractLsb' 4 4 ≠ 15#4 := by
    simp only [itWellFormed, Bool.or_eq_true, Bool.and_eq_true, beq_iff_eq, bne_iff_ne] at hw
    exact (hw.resolve_left hmask).1
  intro h
  apply hcond
  simp [← BitVec.toNat_inj, Nat.shiftRight_eq_div_pow, h]

/-- Settles O23: a well-formed state stays so by `ITAdvance`, and its own form shuts out the condition 1111. -/
theorem itAdvanceKeepsWellFormedIT : Obligations.ItAdvanceKeepsWellFormedIT :=
  fun it hw => ⟨itWellFormed_itAdvance it hw, condition_ne_1111_of_itWellFormed hw⟩

/-- In Illegal Execution state nothing that is fetched is decoded. -/
theorem fetchDecode_of_il {s : State} {bs : List Byte} (hil : s.pstate.il = true) (hf : fetch s = .next bs) :
    fetchDecode s = .fault .illegalState := by
  simp [fetchDecode, hf, hil]

/-- Settles O43: the check of IL stands between the fetch and the decode. -/
theorem illegalStateFaultsAfterFetch : Obligations.IllegalStateFaultsAfterFetch := by
  intro s bytes hil hf
  rw [step, fetchDecode_of_il hil hf]

end Sys2Proof.Machine
end

section
/-! SUPPORT. The state after reset (log 1, 2, 3). -/

namespace Sys2Proof.Machine

/-- Settles O54: reset is in A32 at an aligned pc, in Supervisor mode at EL1, with every SPSR zero. -/
theorem resetMeetsTheInvariant : Obligations.ResetMeetsTheInvariant :=
  have spsrZero : spsrWellFormed 0#32 = true := by decide
  { memory := wf_reset
    pcBit0 := rfl
    pcBit1 := fun _ h => absurd h (by decide)
    a32HasNoIT := fun _ => rfl
    itForm := by decide
    level := rfl
    hypExists := rfl
    spsrFiq := spsrZero
    spsrIrq := spsrZero
    spsrSvc := spsrZero
    spsrMon := spsrZero
    spsrAbt := spsrZero
    spsrUnd := spsrZero }

/-- Every physical register is zero after reset, and so is what an index beyond them reads as. -/
theorem physReg_reset (k : Nat) : State.reset.physReg k = 0#32 := by
  unfold State.physReg
  split
  · exact Vector.getElem_replicate _
  · rfl

/-- The CPSR after reset, whatever the configuration: A, I and F, and the number of Supervisor mode. -/
theorem cpsr_reset : State.reset.pstate.cpsr = 0x000001D3#32 := rfl

/-- IMEM holds no byte after reset, so that the first fetch faults at the pc. -/
theorem step_reset : step State.reset = .fault (.fetch 0#32) :=
  (unmappedFetchFaults State.reset 0 rfl (fun _ h => absurd h (Nat.not_lt_zero _)) rfl).1 rfl (by decide)

/-- Settles O60: the fields as they are set, the registers one by one, the first step by its fetch. -/
theorem resetState : Obligations.ResetState :=
  ⟨rfl, rfl, rfl, rfl, rfl, rfl, cpsr_reset, physReg_reset, rfl, fun _ => rfl, step_reset⟩

end Sys2Proof.Machine
end
